-- ==== Sys2Proof/Word.lean ====
section
/-! DEFINITION. The word types of the command port, the registers and the framebuffer, and the names of the two
buttons (spec/00_scope.md R8, R9, R11; spec/10_state.md R20; spec/42_debouncer.md R110). -/
namespace Sys2Proof

/-- A command word or a register value: 32 bits (R11, R47). -/
abbrev Word := BitVec 32

/-- A framebuffer byte, a character or a glyph column: 8 bits (R28, R45, R46). -/
abbrev Byte := BitVec 8

/-- A 16-bit field: a frequency, a coordinate, a size or a threshold (R59, R61, R64, R67). -/
abbrev Half := BitVec 16

/-- The two buttons of the DB unit (R110); which physical button is which is in no source (N27). -/
inductive Button where
  | a
  | b
deriving DecidableEq, Repr

end Sys2Proof
end

