-- ==== Sys2Proof/Config.lean ====
section
/-! DEFINITION. The parameters of spec/00_scope.md R6: a constant for each one the source gives a value, an opaque
constant for each one marked OPEN, and the free number of drive-clock cycles of spec/40_tone.md R79. -/
namespace Sys2Proof

/-- P_FREQ_MIN (R6). -/
abbrev Config.freqMin : Nat := 20

/-- P_FREQ_MAX (R6). -/
abbrev Config.freqMax : Nat := 20000

/-- P_FB_W (R6). -/
abbrev Config.fbW : Nat := 84

/-- P_FB_H (R6). -/
abbrev Config.fbH : Nat := 48

/-- P_FB_BYTES (R6). -/
abbrev Config.fbBytes : Nat := Config.fbW * Config.fbH / 8

/-- P_GLYPH_W (R6). -/
abbrev Config.glyphW : Nat := 5

/-- P_GLYPH_H (R6). -/
abbrev Config.glyphH : Nat := 8

/-- P_TIME_BITS (R6). -/
abbrev Config.timeBits : Nat := 32

/-- P_TONE_BITS (R6): the width of TONE_TOP, TONE_HIGH and TONE_CNT. -/
abbrev Config.toneBits : Nat := 32

/-- P_IDLE_LEVEL (R6): the drive line's level while the generator is stopped. -/
abbrev Config.idleLevel : Bool := false

/-- P_RESET_THRESH_A (R6). -/
abbrev Config.resetThreshA : Half := 1000

/-- P_RESET_THRESH_B (R6). -/
abbrev Config.resetThreshB : Half := 500

/-- The free value behind P_DRIVE_CLK_HZ, which R6 marks OPEN (I1, D35). Nothing constrains it (log entry 3). -/
opaque Config.driveClkSeed : Nat

/-- P_DRIVE_CLK_HZ. As the seed ranges over the numbers, this ranges over exactly the rates R7 calls legal, from
`2 * P_FREQ_MAX` to the last rate whose period at P_FREQ_MIN fits TONE_TOP, so no illegal configuration can be
formed (log entry 3; `params_wf` in Laws/Config.lean). -/
def Config.driveClkHz : Nat :=
  2 * Config.freqMax + Config.driveClkSeed % (Config.freqMin * 2 ^ Config.toneBits - 2 * Config.freqMax)

/-- A glyph as its five column bytes `col0 .. col4` (R45). -/
abbrev Glyph := Vector Byte 5

/-- P_FONT, which R6 marks OPEN: the column bytes of each supported character. The value at an unsupported byte is
never read (R44; log entry 4). -/
opaque Config.fontGlyph : Byte → Glyph

/-- The free number of drive-clock cycles between two steps, applied to the counter `draws` of the state (R79, I12;
log entry 2). -/
opaque Config.driveCycles : Nat → Nat

/-- The numeric parameters that R7 constrains, as data, so that a configuration can be checked. -/
structure Params where
  driveClkHz : Nat
  freqMin : Nat
  freqMax : Nat
  fbW : Nat
  fbH : Nat
  toneBits : Nat
deriving DecidableEq, Repr

/-- The parameters this model runs with. -/
def Config.params : Params :=
  { driveClkHz := Config.driveClkHz, freqMin := Config.freqMin, freqMax := Config.freqMax,
    fbW := Config.fbW, fbH := Config.fbH, toneBits := Config.toneBits }

end Sys2Proof
end

