-- ==== Sys2Proof/Syntax.lean ====
section
/-! DEFINITION. The twelve commands of spec/30_encoding.md R68 and spec/opcode_table.json as one inductive type, with
the operands of R58 to R67 at their field widths. Reserved bits carry no operand: they must be 0 (R71). -/
namespace Sys2Proof

/-- One command of command interface 1 (R11, R68). -/
inductive Instr where
  /-- NOP, format N (R58, R125). -/
  | nop
  /-- TONE_PLAY freq, format T (R59, R77). -/
  | tonePlay (freq : Half)
  /-- TONE_STOP, format N (R58, R78). -/
  | toneStop
  /-- FB_CLEAR, format N (R58, R99). -/
  | fbClear
  /-- FB_SET_PIXEL x, y, color, format P and an XY word (R60, R61, R92). -/
  | fbSetPixel (color : BitVec 1) (x y : Half)
  /-- FB_DRAW_GLYPH ch, x, y, scale, format G and an XY word (R61, R62, R94). -/
  | fbDrawGlyph (ch scale : Byte) (x y : Half)
  /-- FB_DRAW_STRING text, x, y, scale, spacing, format S, an XY word and the TEXT words (R61, R63, R96). LEN is the
  length of the list; the ignored bytes of the last TEXT word are no operand. -/
  | fbDrawString (scale spacing : Byte) (x y : Half) (text : List Byte)
  /-- FB_FLUSH, format N (R58, R98). -/
  | fbFlush
  /-- FB_CENTER w, h, format N and a WH word (R58, R64, R101). -/
  | fbCenter (w h : Half)
  /-- FB_PEEK index, format K (R65, R102). -/
  | fbPeek (index : BitVec 9)
  /-- DB_SAMPLE rawA, rawB, now, format D and a TIME word (R66, R113). -/
  | dbSample (rawA rawB : BitVec 1) (now : Word)
  /-- DB_SET_THRESH btn, ms, format H (R67, R116). -/
  | dbSetThresh (btn : Button) (ms : Half)
deriving DecidableEq, Repr

end Sys2Proof
end

