-- ==== Sys2Proof/WellFormed.lean ====
section
/-! DEFINITION. What makes a command and a configuration well formed (spec/30_encoding.md R63; spec/00_scope.md R7). -/
namespace Sys2Proof

/-- A command whose operands fit its fields. The field widths are in the types, so the one thing left to check is that
LEN, an unsigned 8-bit field, can hold the length of a string (R63). -/
def Instr.wf : Instr → Bool
  | .nop => true
  | .tonePlay _ => true
  | .toneStop => true
  | .fbClear => true
  | .fbSetPixel _ _ _ => true
  | .fbDrawGlyph _ _ _ _ => true
  | .fbDrawString _ _ _ _ text => decide (text.length ≤ 255)
  | .fbFlush => true
  | .fbCenter _ _ => true
  | .fbPeek _ => true
  | .dbSample _ _ _ => true
  | .dbSetThresh _ _ => true

/-- R7: a configuration is well formed only if all of these hold. The last two bounds keep every in-bounds coordinate
inside a signed 16-bit field. -/
def Params.wf (p : Params) : Bool :=
  decide (p.fbH % 8 = 0)
    && decide (2 * p.freqMax ≤ p.driveClkHz)
    && decide (p.driveClkHz / p.freqMin ≤ 2 ^ p.toneBits - 1)
    && decide (p.fbW ≤ 32767)
    && decide (p.fbH ≤ 32767)

end Sys2Proof
end

