-- ==== Sys2Proof/Decode.lean ====
section
/-! DEFINITION. Decoding and encoding of command words (spec/30_encoding.md R55 to R72), from the encoding tables of
that file. The decoder is total on every list of words and names why it refuses one. -/
namespace Sys2Proof

/-- The bits `lo + width - 1 .. lo` of a word (R9). -/
def field (w : Word) (lo width : Nat) : BitVec width := w.extractLsb' lo width

/-- The twelve opcodes of R69. -/
inductive Opcode where
  | nop | tonePlay | toneStop
  | fbClear | fbSetPixel | fbDrawGlyph | fbDrawString | fbFlush | fbCenter | fbPeek
  | dbSample | dbSetThresh
deriving DecidableEq, Repr

/-- The opcode byte OPC of each command (R68, R69). -/
def Opcode.byte : Opcode → Byte
  | .nop => 0x00
  | .tonePlay => 0x10
  | .toneStop => 0x11
  | .fbClear => 0x20
  | .fbSetPixel => 0x21
  | .fbDrawGlyph => 0x22
  | .fbDrawString => 0x23
  | .fbFlush => 0x24
  | .fbCenter => 0x25
  | .fbPeek => 0x26
  | .dbSample => 0x30
  | .dbSetThresh => 0x31

/-- The opcode map of R69; every value it does not name is illegal (R70). -/
def Opcode.ofByte (b : Byte) : Option Opcode :=
  match b.toNat with
  | 0x00 => some .nop
  | 0x10 => some .tonePlay
  | 0x11 => some .toneStop
  | 0x20 => some .fbClear
  | 0x21 => some .fbSetPixel
  | 0x22 => some .fbDrawGlyph
  | 0x23 => some .fbDrawString
  | 0x24 => some .fbFlush
  | 0x25 => some .fbCenter
  | 0x26 => some .fbPeek
  | 0x30 => some .dbSample
  | 0x31 => some .dbSetThresh
  | _ => none

/-- The bits of word 0 that are "reserved, must be 0" in the command's format (R58 to R67, R71). -/
def Opcode.reservedMask : Opcode → Word
  | .nop => 0x00FFFFFF
  | .tonePlay => 0x00FF0000
  | .toneStop => 0x00FFFFFF
  | .fbClear => 0x00FFFFFF
  | .fbSetPixel => 0x00FFFFFE
  | .fbDrawGlyph => 0x0000FF00
  | .fbDrawString => 0x00000000
  | .fbFlush => 0x00FFFFFF
  | .fbCenter => 0x00FFFFFF
  | .fbPeek => 0x00FFFE00
  | .dbSample => 0x00FFFFFC
  | .dbSetThresh => 0x00FE0000

/-- OPC, bits 31:24 of word 0 (R57). -/
def opcodeByte (w0 : Word) : Byte := field w0 24 8

/-- `(LEN + 3) div 4`, the number of TEXT words of a string of LEN characters (R63). -/
def textWordCount (len : Nat) : Nat := (len + 3) / 4

/-- The number of extension words after word 0 (R68). -/
def Opcode.extWords (o : Opcode) (w0 : Word) : Nat :=
  match o with
  | .nop => 0
  | .tonePlay => 0
  | .toneStop => 0
  | .fbClear => 0
  | .fbSetPixel => 1
  | .fbDrawGlyph => 1
  | .fbDrawString => 1 + textWordCount (field w0 0 8).toNat
  | .fbFlush => 0
  | .fbCenter => 1
  | .fbPeek => 0
  | .dbSample => 1
  | .dbSetThresh => 0

/-- Why a list of words is no whole command. -/
inductive Reject where
  /-- There is no word 0 yet: the block waits (R139). -/
  | noWord
  /-- OPC names no command: Fault(ILLEGAL_OPCODE) (R70). -/
  | illegalOpcode
  /-- A reserved bit of word 0 is 1: Fault(RESERVED_FIELD) (R71). -/
  | reservedField
  /-- Word 0 is accepted and extension words are still to come: the block waits (R56, R139). -/
  | incomplete
deriving DecidableEq, Repr

/-- The checks of word 0, made as soon as it arrives: the opcode first, then the reserved bits (R56, R133). -/
def checkWord0 (w0 : Word) : Except Reject Opcode :=
  match Opcode.ofByte (opcodeByte w0) with
  | none => .error .illegalOpcode
  | some o => if w0 &&& o.reservedMask = 0 then .ok o else .error .reservedField

/-- The number of words of the command that word 0 starts; 1 for an illegal opcode, whose word 0 faults alone
(R56, R68). -/
def commandLength (w0 : Word) : Nat :=
  match Opcode.ofByte (opcodeByte w0) with
  | none => 1
  | some o => 1 + o.extWords w0

/-- The four characters of one TEXT word: character `4j + m` in bits `8m+7 : 8m` (R47, R63). -/
def textBytes (w : Word) : List Byte :=
  [field w 0 8, field w 8 8, field w 16 8, field w 24 8]

/-- The characters of a list of TEXT words, in order (R47). -/
def unpackText : List Word → List Byte
  | [] => []
  | w :: ws => textBytes w ++ unpackText ws

/-- BTN: 0 selects button A, 1 selects button B (R67). -/
def buttonOfBit (b : BitVec 1) : Button := if b = 0 then .a else .b

/-- The BTN bit of a button (R67). -/
def bitOfButton : Button → BitVec 1
  | .a => 0
  | .b => 1

/-- A command with no extension word, and the words after it. -/
def oneWord (i : Instr) (ext : List Word) : Except Reject (Instr × List Word) := .ok (i, ext)

/-- A command with one extension word, from that word, and the words after it. -/
def twoWords (f : Word → Instr) (ext : List Word) : Except Reject (Instr × List Word) :=
  match ext with
  | [] => .error .incomplete
  | w :: rest => .ok (f w, rest)

/-- FB_DRAW_STRING from its XY word and its TEXT words; bytes at LEN and beyond are ignored (R63). -/
def stringWords (w0 : Word) (ext : List Word) : Except Reject (Instr × List Word) :=
  match ext with
  | [] => .error .incomplete
  | xy :: more =>
    let len := (field w0 0 8).toNat
    let n := textWordCount len
    if more.length < n then .error .incomplete
    else .ok (.fbDrawString (field w0 16 8) (field w0 8 8) (field xy 16 16) (field xy 0 16)
      ((unpackText (more.take n)).take len), more.drop n)

/-- The operands of a command whose word 0 has passed its checks (R58 to R67). -/
def decodeFields (o : Opcode) (w0 : Word) (ext : List Word) : Except Reject (Instr × List Word) :=
  match o with
  | .nop => oneWord .nop ext
  | .tonePlay => oneWord (.tonePlay (field w0 0 16)) ext
  | .toneStop => oneWord .toneStop ext
  | .fbClear => oneWord .fbClear ext
  | .fbSetPixel => twoWords (fun xy => .fbSetPixel (field w0 0 1) (field xy 16 16) (field xy 0 16)) ext
  | .fbDrawGlyph =>
    twoWords (fun xy => .fbDrawGlyph (field w0 0 8) (field w0 16 8) (field xy 16 16) (field xy 0 16)) ext
  | .fbDrawString => stringWords w0 ext
  | .fbFlush => oneWord .fbFlush ext
  | .fbCenter => twoWords (fun wh => .fbCenter (field wh 16 16) (field wh 0 16)) ext
  | .fbPeek => oneWord (.fbPeek (field w0 0 9)) ext
  | .dbSample => twoWords (fun now => .dbSample (field w0 0 1) (field w0 1 1) now) ext
  | .dbSetThresh => oneWord (.dbSetThresh (buttonOfBit (field w0 16 1)) (field w0 0 16)) ext

/-- The command at the front of a list of words and the words after it, or why there is none (R55, R56). -/
def decode : List Word → Except Reject (Instr × List Word)
  | [] => .error .noWord
  | w0 :: ext =>
    match checkWord0 w0 with
    | .error r => .error r
    | .ok o => decodeFields o w0 ext

/-- The TEXT words of a string, four characters a word, the first in the low byte (R47, R63). The bytes past the
string's end, which R63 lets hold any value, are 0 (log entry 12). -/
def packText : List Byte → List Word
  | [] => []
  | [a] => [(0#8 ++ 0#8 ++ 0#8 ++ a : BitVec 32)]
  | [a, b] => [(0#8 ++ 0#8 ++ b ++ a : BitVec 32)]
  | [a, b, c] => [(0#8 ++ c ++ b ++ a : BitVec 32)]
  | a :: b :: c :: d :: rest => (d ++ c ++ b ++ a : BitVec 32) :: packText rest

/-- An extension word of two 16-bit fields, the first one high: XY (R61) and WH (R64). -/
def halves (hi lo : Half) : Word := (hi ++ lo : BitVec 32)

/-- The words of a command (R58 to R67, R73). -/
def encode : Instr → List Word
  | .nop => [(0x00#8 ++ 0#24 : BitVec 32)]
  | .tonePlay freq => [(0x10#8 ++ 0#8 ++ freq : BitVec 32)]
  | .toneStop => [(0x11#8 ++ 0#24 : BitVec 32)]
  | .fbClear => [(0x20#8 ++ 0#24 : BitVec 32)]
  | .fbSetPixel color x y => [(0x21#8 ++ 0#23 ++ color : BitVec 32), halves x y]
  | .fbDrawGlyph ch scale x y => [(0x22#8 ++ scale ++ 0#8 ++ ch : BitVec 32), halves x y]
  | .fbDrawString scale spacing x y text =>
    (0x23#8 ++ scale ++ spacing ++ BitVec.ofNat 8 text.length : BitVec 32) :: halves x y :: packText text
  | .fbFlush => [(0x24#8 ++ 0#24 : BitVec 32)]
  | .fbCenter w h => [(0x25#8 ++ 0#24 : BitVec 32), halves w h]
  | .fbPeek index => [(0x26#8 ++ 0#15 ++ index : BitVec 32)]
  | .dbSample rawA rawB now => [(0x30#8 ++ 0#22 ++ rawB ++ rawA : BitVec 32), now]
  | .dbSetThresh btn ms => [(0x31#8 ++ 0#7 ++ bitOfButton btn ++ ms : BitVec 32)]

/-- Word 0 of a command, the word a fault records (R131). -/
def Instr.word0 (i : Instr) : Word := (encode i).headD 0

/-- The first `n` words of a number whose bit 0 is bit 0 of word 0. -/
def wordsOfNat : Nat → Nat → List Word
  | 0, _ => []
  | n + 1, v => BitVec.ofNat 32 v :: wordsOfNat n (v / 2 ^ 32)

/-- The words of the one command that a row of spec/opcode_table.json describes by its bits: as many as its word 0
asks for, the bits from `nbits` up being 0. -/
def tableWords (nbits w : Nat) : List Word :=
  wordsOfNat (commandLength (BitVec.ofNat 32 (w % 2 ^ nbits))) (w % 2 ^ nbits)

/-- The command the decoder reads from the bits of a row of spec/opcode_table.json, or none where it refuses. -/
def decodeTableWord (nbits w : Nat) : Option Instr :=
  match decode (tableWords nbits w) with
  | .ok (i, _) => some i
  | .error _ => none

end Sys2Proof
end

