-- ==== Sys2Proof/Machine/State.lean ====
section
/-! DEFINITION. The state of the block (spec/10_state.md R20 to R39) as plain data, the environment's next acts as plain
data beside it, the state after reset, and the ways a step can stop. -/
namespace Sys2Proof.Machine

/-- The framebuffer's contents: the bytes that are not 0x00, by rising address (R28; `Memory.wf` in Ops.lean). -/
abbrev Memory := List Host.Cell

/-- The calls the block makes to the tone output collaborator (R16). -/
inductive ToneCall where
  /-- `setDriveFrequency(counterTop)`. -/
  | setTop (n : Word)
  /-- `setDutyCycle(highTicks)`. -/
  | setDuty (n : Word)
  /-- `startLoop()`. -/
  | start
  /-- `stop()`. -/
  | stop
deriving DecidableEq, Repr

/-- The calls of the display transport collaborator (R16). -/
inductive DispCall where
  /-- `setCursor(x, y)`. -/
  | setCursor (x y : Nat)
  /-- `writeDataByte(b)`. -/
  | data (b : Byte)
  /-- `writeCommandByte(b)`, which the block never calls (R16, R97). -/
  | command (b : Byte)
deriving DecidableEq, Repr

/-- One call to a collaborator (R10). -/
inductive Call where
  | tone (c : ToneCall)
  | disp (c : DispCall)
deriving DecidableEq, Repr

/-- What the host, the display transport or the platform does to the block, or whose turn it is (R14, R15, R150;
log entry 1). -/
inductive EnvEvent where
  /-- The block takes its turn before the next event. -/
  | turn
  /-- The host writes a word to the command port, and the block takes its turn with it (R15, R56). -/
  | write (w : Word)
  /-- The host reads a register (R126). -/
  | read (n : Byte)
  /-- From now on the transport completes this many display calls, `none` meaning every one (R16, R139). -/
  | acks (a : Option Nat)
  /-- The platform asserts reset (R150). -/
  | reset
deriving DecidableEq, Repr

/-- The state of one button (R31 to R34). -/
structure ButtonState where
  /-- PRESSED_i (R31). -/
  pressed : Bool
  /-- EVT_i (R31). -/
  evt : Bool
  /-- LONG_i (R31). -/
  long : Bool
  /-- START_i (R32). -/
  start : Word
  /-- DUR_i (R33). -/
  dur : Word
  /-- THRESH_i (R34). -/
  thresh : Half
deriving DecidableEq, Repr

/-- The state of the block (R20), and after it the environment and the observations, which are the model's own. -/
structure State where
  /-- TONE_RUN (R23). -/
  toneRun : Bool
  /-- TONE_TOP (R24). -/
  toneTop : Word
  /-- TONE_HIGH (R25). -/
  toneHigh : Word
  /-- TONE_CNT (R26). -/
  toneCnt : Word
  /-- FB (R28). -/
  fb : Memory
  /-- FB_RDATA (R29). -/
  fbRdata : Byte
  /-- FB_CENTER_X (R30). -/
  fbCenterX : Half
  /-- FB_CENTER_Y (R30). -/
  fbCenterY : Half
  /-- Button A (R31 to R34). -/
  btnA : ButtonState
  /-- Button B (R31 to R34). -/
  btnB : ButtonState
  /-- FAULTED (R35). -/
  faulted : Bool
  /-- FAULT_CAUSE (R35). -/
  faultCause : BitVec 4
  /-- FAULT_WORD (R35). -/
  faultWord : Word
  /-- CMD_BUF (R36): the words received so far of a command that is not complete. -/
  cmdBuf : List Word
  /-- Transport progress (R36): `some k` while the completion of display call `k` of a flush is awaited. -/
  flush : Option Nat
  /-- The words the host has written and the block has not yet taken, oldest first (R55, R155; log entry 1). -/
  port : List Word
  /-- What the environment does next, in order (log entry 1). -/
  env : List EnvEvent
  /-- How many display calls the transport still completes; `none` means every one (R139; log entry 5). -/
  acks : Option Nat
  /-- Every collaborator call made so far, newest first (R54; log entry 6). -/
  calls : List Call
  /-- What the read port answered last (R126; log entry 7). -/
  readData : Option Word
  /-- How many draws of drive-clock cycles have been taken (R79; log entry 2). -/
  draws : Nat
deriving DecidableEq, Repr

/-- How a step can end in a fault of the MODEL: it cannot. The block's own four faults (R130) are next states with the
fault recorded (R131, R134; log entry 8), and no rule forms a framebuffer index that does not exist (R40). -/
inductive Fault where
deriving DecidableEq, Repr

/-- Why a step can answer with no meaning. -/
inductive Refusal where
  /-- Raised by an arm of `exec` whose instruction has no meaning yet; safe. No arm raises it. -/
  | notModelled (mnemonic : String)
  /-- Raised by the read port for a register number outside 0x00..0x0C, which R126 refuses; safe. -/
  | unmappedRegister (n : Byte)
deriving DecidableEq, Repr

/-- A button after reset, with the threshold reset loads (R39). -/
def ButtonState.reset (thresh : Half) : ButtonState :=
  { pressed := false, evt := false, long := false, start := 0, dur := 0, thresh := thresh }

/-- The machine right after reset (R39, R151). The environment's fields have the values of log entries 1, 2, 5, 6
and 7. -/
def State.reset : State :=
  { toneRun := false
    toneTop := 0
    toneHigh := 0
    toneCnt := 0
    fb := []
    fbRdata := 0
    fbCenterX := 0
    fbCenterY := 0
    btnA := ButtonState.reset Config.resetThreshA
    btnB := ButtonState.reset Config.resetThreshB
    faulted := false
    faultCause := 0
    faultWord := 0
    cmdBuf := []
    flush := none
    port := []
    env := []
    acks := none
    calls := []
    readData := none
    draws := 0 }

end Sys2Proof.Machine
end

