-- ==== Sys2Proof/Machine/Ops.lean ====
section
/-! DEFINITION. The named operations over the framebuffer, the collaborators, the fault registers, the reset and the
register read port. -/
namespace Sys2Proof.Machine

/-- What an unlisted framebuffer address reads as: the reset contents of every byte (R28). -/
abbrev Memory.unlisted : Byte := 0x00

/-- The byte at an address. -/
def Memory.read : Memory → Nat → Byte
  | [], _ => Memory.unlisted
  | (b, u) :: m, a => if b = a then u else Memory.read m a

/-- Writes one byte and keeps the canonical form: rising addresses, no entry equal to what an unlisted address
reads as. -/
def Memory.write : Memory → Nat → Byte → Memory
  | [], a, v => if v = Memory.unlisted then [] else [(a, v)]
  | (b, u) :: m, a, v =>
    if a < b then
      if v = Memory.unlisted then (b, u) :: m else (a, v) :: (b, u) :: m
    else if a = b then
      if v = Memory.unlisted then m else (a, v) :: m
    else (b, u) :: Memory.write m a v

/-- The canonical form: addresses strictly rise, no listed byte is what an unlisted one reads as, and every address is
a framebuffer index (R40). -/
abbrev Memory.wf (m : Memory) : Prop :=
  m.Pairwise (fun c d => c.1 < d.1) ∧ ∀ c ∈ m, c.2 ≠ Memory.unlisted ∧ c.1 < Config.fbBytes

/-- FBRead(i) (R10, R40). -/
def fbRead (s : State) (i : Nat) : Byte := Memory.read s.fb i

/-- `FBWrite(i, 0x00)` for every i, the loop of FB_CLEAR (R99). -/
def zeroBytes (m : Memory) : Memory :=
  (List.range Config.fbBytes).foldl (fun m i => Memory.write m i 0x00) m

/-- One call to a collaborator; the log keeps the order across both (R10, R54). -/
def emit (c : Call) (s : State) : State := { s with calls := c :: s.calls }

/-- Every collaborator call so far, oldest first (R54). -/
def trace (s : State) : List Call := s.calls.reverse

/-- The four causes of a fault (R130). -/
inductive Cause where
  | illegalOpcode
  | reservedField
  | freqRange
  | peekRange
deriving DecidableEq, Repr

/-- FAULT_CAUSE of each fault (R130). -/
def causeCode : Cause → BitVec 4
  | .illegalOpcode => 1
  | .reservedField => 2
  | .freqRange => 3
  | .peekRange => 4

/-- `raise Fault(cause)`: the whole of fault entry (R131). The block has no handler, no saved position and no mode. -/
def raiseFault (c : Cause) (w0 : Word) (s : State) : State :=
  { s with faulted := true, faultCause := causeCode c, faultWord := w0, cmdBuf := [] }

/-- Reset asserted by the platform: every piece of the block's state takes its value of R39, a command or a flush in
progress is abandoned, and no call is made (R151). Words written before it are gone, so that the next word the host
writes is word 0 (R152); the environment's other fields stay (log entry 9). -/
def resetBlock (s : State) : State :=
  { State.reset with
    env := s.env
    acks := s.acks
    calls := s.calls
    readData := s.readData
    draws := s.draws }

/-- One 1-bit field of a register. -/
def bit (b : Bool) : BitVec 1 := BitVec.ofBool b

/-- STATUS: bit 0 TONE_RUN, bit 1 FAULTED, bits 7:4 FAULT_CAUSE, the others 0 (R22). -/
def statusWord (s : State) : Word :=
  (0#24 ++ s.faultCause ++ 0#2 ++ bit s.faulted ++ bit s.toneRun : BitVec 32)

/-- FB_CENTER_XY: FB_CENTER_X high, FB_CENTER_Y low (R21). -/
def centerWord (s : State) : Word := (s.fbCenterX ++ s.fbCenterY : BitVec 32)

/-- DB_STATE: PRESSED, EVT and LONG of A and B from bit 0 up, the others 0 (R21, R31). -/
def dbStateWord (s : State) : Word :=
  (0#26 ++ bit s.btnB.long ++ bit s.btnA.long ++ bit s.btnB.evt ++ bit s.btnA.evt
    ++ bit s.btnB.pressed ++ bit s.btnA.pressed : BitVec 32)

/-- ReadReg(n): the register's value, or none for the numbers 0x0D to 0xFF, which are refused (R21, R126). -/
def readReg (s : State) (n : Byte) : Option Word :=
  match n.toNat with
  | 0x00 => some (statusWord s)
  | 0x01 => some s.toneTop
  | 0x02 => some s.toneHigh
  | 0x03 => some (s.fbRdata.setWidth 32)
  | 0x04 => some (centerWord s)
  | 0x05 => some (dbStateWord s)
  | 0x06 => some s.btnA.start
  | 0x07 => some s.btnB.start
  | 0x08 => some s.btnA.dur
  | 0x09 => some s.btnB.dur
  | 0x0A => some (s.btnA.thresh.setWidth 32)
  | 0x0B => some (s.btnB.thresh.setWidth 32)
  | 0x0C => some s.faultWord
  | _ => none

end Sys2Proof.Machine
end

