-- ==== Sys2Proof/Machine/Operands.lean ====
section
/-! DEFINITION. The operand forms of the commands as the pseudocode reads them: unsigned and signed fields, and the
glyph a character names (spec/30_encoding.md R59 to R67; spec/20_memory.md R43 to R46). -/
namespace Sys2Proof.Machine

/-- FREQ, `zext_32(word0[15:0])` (R59). -/
abbrev freqOf (freq : Half) : Nat := freq.toNat

/-- X or Y, `sext_16` (R61). -/
abbrev coordOf (v : Half) : Int := v.toInt

/-- SPACING, `sext_8` (R63). -/
abbrev spacingOf (v : Byte) : Int := v.toInt

/-- SCALE, unsigned (R62, R63). -/
abbrev scaleOf (v : Byte) : Nat := v.toNat

/-- COLOR: 1 sets the pixel, 0 clears it (R43, R60). -/
def colorOf (c : BitVec 1) : Bool := c == 1

/-- W or H, unsigned (R64). -/
abbrev sizeOf16 (v : Half) : Int := v.toNat

/-- INDEX, unsigned (R65). -/
abbrev indexOf (v : BitVec 9) : Nat := v.toNat

/-- A raw level of 0 means the button is pressed (R66, R111). -/
def pressedOf (raw : BitVec 1) : Bool := raw == 0

/-- The 66 supported characters (R46). -/
def supported (c : Byte) : Bool :=
  let n := c.toNat
  (decide (0x30 ≤ n) && decide (n ≤ 0x3A))
    || (decide (0x41 ≤ n) && decide (n ≤ 0x5A))
    || (decide (0x61 ≤ n) && decide (n ≤ 0x7A))
    || n == 0x20 || n == 0x2E || n == 0x21

/-- Font(c) for a given table of bitmaps: a glyph exactly for the supported characters (R44). -/
def fontWith (table : Byte → Glyph) (c : Byte) : Option Glyph :=
  if supported c then some (table c) else none

/-- Font(c) with P_FONT (R44). -/
def font (c : Byte) : Option Glyph := fontWith Config.fontGlyph c

/-- `g(col, row)`: bit `row` of column byte `col` (R45). -/
def glyphBit (g : Glyph) (col row : Nat) : Bool := (g.toList.getD col 0).getLsbD row

end Sys2Proof.Machine
end

