-- ==== Sys2Proof/Machine/Flags.lean ====
section
/-! DEFINITION. The flags of spec/10_state.md R38: how a sample computes PRESSED, EVT and LONG
(spec/42_debouncer.md R112, R115), and the drive line's level (spec/10_state.md R27). -/
namespace Sys2Proof.Machine

/-- A release is long when its duration is at least the threshold: a tie is long (R115). -/
def isLong (dur : Word) (thresh : Half) : Bool := decide (thresh.toNat ≤ dur.toNat)

/-- The held duration, `(now - START_i) mod 2^32` (R112, R114). -/
def heldFor (now start : Word) : Word := now - start

/-- Step_i(r, now): one button's step in one sample (R112). -/
def sampleButton (raw : BitVec 1) (now : Word) (b : ButtonState) : ButtonState :=
  if pressedOf raw && !b.pressed then
    { b with evt := false, start := now, pressed := true }
  else if !pressedOf raw && b.pressed then
    { b with
      evt := true
      dur := heldFor now b.start
      long := isLong (heldFor now b.start) b.thresh
      pressed := false }
  else { b with evt := false }

/-- TONE_OUT: the idle level while stopped, else high for the first TONE_HIGH cycles of a period (R27, R80). -/
def toneOut (s : State) : Bool :=
  if s.toneRun then decide (s.toneCnt.toNat < s.toneHigh.toNat) else Config.idleLevel

end Sys2Proof.Machine
end

