-- ==== Sys2Proof/Machine/Db.lean ====
section
/-! DEFINITION. The commands of the DB unit (spec/42_debouncer.md). -/
namespace Sys2Proof.Machine

/-- DB_SAMPLE rawA, rawB, now: one sampling tick of both buttons (R113). -/
def execDbSample (rawA rawB : BitVec 1) (now : Word) (s : State) : Host.Outcome State Fault Refusal :=
  .next { s with btnA := sampleButton rawA now s.btnA, btnB := sampleButton rawB now s.btnB }

/-- DB_SET_THRESH btn, ms (R116). -/
def execDbSetThresh (btn : Button) (ms : Half) (s : State) : Host.Outcome State Fault Refusal :=
  match btn with
  | .a => .next { s with btnA := { s.btnA with thresh := ms } }
  | .b => .next { s with btnB := { s.btnB with thresh := ms } }

end Sys2Proof.Machine
end

