-- ==== Sys2Proof/Machine/Fb.lean ====
section
/-! DEFINITION. The FB unit (spec/41_framebuffer.md): pixels, glyphs, strings, the flush with its waits, centering and
the seven commands. -/
namespace Sys2Proof.Machine

/-- The bounds check of SetPixel (R91); coordinates are exact integers (R8, R90). -/
def inGrid (x y : Int) : Bool :=
  decide (0 ≤ x) && decide (x < (Config.fbW : Int)) && decide (0 ≤ y) && decide (y < (Config.fbH : Int))

/-- `x + (y div 8) * P_FB_W`, the byte that holds an in-grid pixel (R41). -/
def pixelByte (x y : Int) : Nat := (x + y / 8 * (Config.fbW : Int)).toNat

/-- `y mod 8`, the bit of that byte (R41). -/
def pixelBit (y : Int) : Nat := (y % 8).toNat

/-- Whether the pixel's bit is 1 (R41, R43); an out-of-grid point has no pixel. -/
def pixel (m : Memory) (x y : Int) : Bool :=
  inGrid x y && (Memory.read m (pixelByte x y)).getLsbD (pixelBit y)

/-- A byte with one bit set or cleared (R91). -/
def putBit (v : Byte) (b : Nat) (c : Bool) : Byte :=
  if c then v ||| (1#8 <<< b) else v &&& (0xFF#8 ^^^ (1#8 <<< b))

/-- SetPixel(x, y, c): the check comes before the index is formed (R91). -/
def setPixel (x y : Int) (c : Bool) (m : Memory) : Memory :=
  if inGrid x y then
    Memory.write m (pixelByte x y) (putBit (Memory.read m (pixelByte x y)) (pixelBit y) c)
  else m

/-- The `s` by `s` block of one set glyph bit (R93). -/
def blockPixels (x y : Int) (s : Nat) : List (Int × Int) :=
  (List.range s).flatMap fun (dx : Nat) => (List.range s).map fun (dy : Nat) => (x + (dx : Int), y + (dy : Int))

/-- The points DrawGlyph gives to SetPixel for a glyph, in its loop order (R93). -/
def glyphPixels (g : Glyph) (x y : Int) (s : Nat) : List (Int × Int) :=
  (List.range Config.glyphW).flatMap fun (col : Nat) =>
    (List.range Config.glyphH).flatMap fun (row : Nat) =>
      if glyphBit g col row then blockPixels (x + ((col * s : Nat) : Int)) (y + ((row * s : Nat) : Int)) s else []

/-- The points DrawGlyph gives to SetPixel for a character: none when it is unsupported (R93). -/
def charPixels (fnt : Byte → Option Glyph) (ch : Byte) (x y : Int) (s : Nat) : List (Int × Int) :=
  match fnt ch with
  | none => []
  | some g => glyphPixels g x y s

/-- The points DrawString gives to SetPixel: a 0x00 byte ends the string, and every character advances the cursor
(R95). -/
def stringPixels (fnt : Byte → Option Glyph) (y : Int) (s : Nat) (sp : Int) : List Byte → Int → List (Int × Int)
  | [], _ => []
  | ch :: text, cx =>
    if ch = 0x00 then []
    else charPixels fnt ch cx y s ++ stringPixels fnt y s sp text (cx + ((Config.glyphW * s : Nat) : Int) + sp)

/-- `SetPixel(px, py, 1)` for every point, in order (R93). -/
def paint (points : List (Int × Int)) (m : Memory) : Memory :=
  points.foldl (fun m p => setPixel p.1 p.2 true m) m

/-- The 505 display calls of one Flush, in order (R97). -/
def flushCalls (m : Memory) : List DispCall :=
  .setCursor 0 0 :: (List.range Config.fbBytes).map fun i => .data (Memory.read m i)

/-- Display calls issued one by one, each waiting for its completion (R97). `k` is the number of the first of them in
the flush. When the transport does not complete call `k`, the block stays waiting for it (R139). -/
def issueCalls : List DispCall → Nat → State → State
  | [], _, s => { s with flush := none }
  | c :: cs, k, s =>
    match s.acks with
    | none => issueCalls cs (k + 1) (emit (.disp c) s)
    | some 0 => { emit (.disp c) s with flush := some k }
    | some (n + 1) => issueCalls cs (k + 1) { emit (.disp c) s with acks := some n }

/-- Flush(), from its first call (R97). -/
def startFlush (s : State) : State := issueCalls (flushCalls s.fb) 0 s

/-- A block that waits for the completion of display call `k`: when the transport completes it, the rest of the flush
is issued; otherwise the block goes on waiting (R97, R139). -/
def resumeFlush (k : Nat) (s : State) : State :=
  match s.acks with
  | none => issueCalls ((flushCalls s.fb).drop (k + 1)) (k + 1) s
  | some 0 => s
  | some (n + 1) => issueCalls ((flushCalls s.fb).drop (k + 1)) (k + 1) { s with acks := some n }

/-- One coordinate of Center: `max(0, (dim - size) div 2)` (R100). -/
def centerOf (dim size : Int) : Half := BitVec.ofInt 16 (max 0 ((dim - size) / 2))

/-- FB_SET_PIXEL x, y, color (R92). -/
def execFbSetPixel (color : BitVec 1) (x y : Half) (s : State) : Host.Outcome State Fault Refusal :=
  .next { s with fb := setPixel (coordOf x) (coordOf y) (colorOf color) s.fb }

/-- FB_DRAW_GLYPH ch, x, y, scale (R94). -/
def execFbDrawGlyph (ch scale : Byte) (x y : Half) (s : State) : Host.Outcome State Fault Refusal :=
  .next { s with fb := paint (charPixels font ch (coordOf x) (coordOf y) (scaleOf scale)) s.fb }

/-- FB_DRAW_STRING text, x, y, scale, spacing (R96). -/
def execFbDrawString (scale spacing : Byte) (x y : Half) (text : List Byte) (s : State) :
    Host.Outcome State Fault Refusal :=
  .next { s with
    fb := paint (stringPixels font (coordOf y) (scaleOf scale) (spacingOf spacing) text (coordOf x)) s.fb }

/-- FB_FLUSH (R98). -/
def execFbFlush (s : State) : Host.Outcome State Fault Refusal := .next (startFlush s)

/-- FB_CLEAR: every byte is zero before the first display call (R99). -/
def execFbClear (s : State) : Host.Outcome State Fault Refusal :=
  .next (startFlush { s with fb := zeroBytes s.fb })

/-- FB_CENTER w, h (R101). -/
def execFbCenter (w h : Half) (s : State) : Host.Outcome State Fault Refusal :=
  .next { s with
    fbCenterX := centerOf Config.fbW (sizeOf16 w)
    fbCenterY := centerOf Config.fbH (sizeOf16 h) }

/-- FB_PEEK index (R102). -/
def execFbPeek (index : BitVec 9) (s : State) : Host.Outcome State Fault Refusal :=
  if Config.fbBytes ≤ indexOf index then .next (raiseFault .peekRange (Instr.fbPeek index).word0 s)
  else .next { s with fbRdata := fbRead s (indexOf index) }

end Sys2Proof.Machine
end

