-- ==== Sys2Proof/Machine/System.lean ====
section
/-! DEFINITION. The system command (spec/43_system.md). -/
namespace Sys2Proof.Machine

/-- NOP: no state changes and no collaborator call (R125). -/
def execNop (s : State) : Host.Outcome State Fault Refusal := .next s

end Sys2Proof.Machine
end

