-- ==== Sys2Proof/Machine/Tone.lean ====
section
/-! DEFINITION. The TONE unit (spec/40_tone.md): the four calls with their registers, the two commands, and the
waveform generator. -/
namespace Sys2Proof.Machine

/-- `P_DRIVE_CLK_HZ div f` for a given drive clock (R76). -/
def periodWith (hz f : Nat) : Nat := hz / f

/-- `period(f)` (R76). -/
def period (f : Nat) : Nat := periodWith Config.driveClkHz f

/-- `emit Tone(Stop); TONE_RUN <- 0` (R77, R78). -/
def toneStopCall (s : State) : State := { emit (.tone .stop) s with toneRun := false }

/-- `emit Tone(SetTop(n)); TONE_TOP <- n` (R77). -/
def toneSetTop (n : Word) (s : State) : State := { emit (.tone (.setTop n)) s with toneTop := n }

/-- `emit Tone(SetDuty(n)); TONE_HIGH <- n` (R77). -/
def toneSetDuty (n : Word) (s : State) : State := { emit (.tone (.setDuty n)) s with toneHigh := n }

/-- `emit Tone(Start); TONE_CNT <- 0; TONE_RUN <- 1`: the phase reset (R77). -/
def toneStart (s : State) : State := { emit (.tone .start) s with toneCnt := 0, toneRun := true }

/-- The stop-then-start of a legal nonzero frequency with period count `p` (R77). -/
def toneRestart (p : Nat) (s : State) : State :=
  toneStart (toneSetDuty (BitVec.ofNat 32 (p / 2)) (toneSetTop (BitVec.ofNat 32 p) (toneStopCall s)))

/-- TONE_PLAY freq (R77). -/
def execTonePlay (freq : Half) (s : State) : Host.Outcome State Fault Refusal :=
  let f := freqOf freq
  if f = 0 then .next (toneSetDuty 0 s)
  else if f < Config.freqMin ∨ Config.freqMax < f then
    .next (raiseFault .freqRange (Instr.tonePlay freq).word0 s)
  else .next (toneRestart (period f) s)

/-- TONE_STOP (R78). -/
def execToneStop (s : State) : Host.Outcome State Fault Refusal := .next (toneStopCall s)

/-- One drive-clock cycle of the counter: `TONE_CNT <- (TONE_CNT + 1) mod TONE_TOP` (R79). -/
def tickCnt (top cnt : Word) : Word := BitVec.ofNat 32 ((cnt.toNat + 1) % top.toNat)

/-- `n` drive-clock cycles of the counter (R79). -/
def tickCntN (top : Word) : Nat → Word → Word
  | 0, cnt => cnt
  | n + 1, cnt => tickCntN top n (tickCnt top cnt)

/-- `n` drive-clock cycles pass: TONE_CNT advances while TONE_RUN = 1 and else does not change (R79). -/
def cycles (n : Nat) (s : State) : State :=
  { s with toneCnt := if s.toneRun then tickCntN s.toneTop n s.toneCnt else s.toneCnt }

/-- The free number of drive-clock cycles at a step boundary (R79, I12; log entry 2). -/
def elapse (s : State) : State :=
  { cycles (Config.driveCycles s.draws) s with draws := s.draws + 1 }

end Sys2Proof.Machine
end

