-- ==== Sys2Proof/Machine/Dispatch.lean ====
section
/-! DEFINITION. The dispatch of the twelve commands of spec/opcode_table.json to their meanings. -/
namespace Sys2Proof.Machine

/-- Executes one command to completion (R51, R56). -/
def exec (i : Instr) (s : State) : Host.Outcome State Fault Refusal :=
  match i with
  | .nop => Sys2Proof.Machine.execNop s
  | .tonePlay freq => Sys2Proof.Machine.execTonePlay freq s
  | .toneStop => Sys2Proof.Machine.execToneStop s
  | .fbClear => Sys2Proof.Machine.execFbClear s
  | .fbSetPixel color x y => Sys2Proof.Machine.execFbSetPixel color x y s
  | .fbDrawGlyph ch scale x y => Sys2Proof.Machine.execFbDrawGlyph ch scale x y s
  | .fbDrawString scale spacing x y text => Sys2Proof.Machine.execFbDrawString scale spacing x y text s
  | .fbFlush => Sys2Proof.Machine.execFbFlush s
  | .fbCenter w h => Sys2Proof.Machine.execFbCenter w h s
  | .fbPeek index => Sys2Proof.Machine.execFbPeek index s
  | .dbSample rawA rawB now => Sys2Proof.Machine.execDbSample rawA rawB now s
  | .dbSetThresh btn ms => Sys2Proof.Machine.execDbSetThresh btn ms s

end Sys2Proof.Machine
end

