-- ==== Sys2Proof/Machine/Port.lean ====
section
/-! DEFINITION. The command port, the block's turn and the environment's turn (spec/30_encoding.md R55, R56;
spec/60_exceptions.md R131 to R139; spec/00_scope.md R15). -/
namespace Sys2Proof.Machine

/-- The words the block holds or can take, oldest first: CMD_BUF and then the port (R36, R55). -/
def pendingWords (s : State) : List Word := s.cmdBuf ++ s.port

/-- A fault found at word 0: the word is taken, no extension word is awaited (R56, R131). -/
def faultWord0 (c : Cause) (s : State) : State :=
  raiseFault c ((pendingWords s).headD 0) { s with port := (pendingWords s).tail }

/-- Takes the words of one command and executes it, or takes what there is of it and waits (R56). DESIGN CHOICE (log
entry 16): CMD_BUF is emptied before the command executes, so it holds nothing while a flush waits. -/
def takeCommand (s : State) : Host.Outcome State Fault Refusal :=
  match decode (pendingWords s) with
  | .ok (i, rest) => exec i { s with cmdBuf := [], port := rest }
  | .error .illegalOpcode => .next (faultWord0 .illegalOpcode s)
  | .error .reservedField => .next (faultWord0 .reservedField s)
  | .error .noWord => .next s
  | .error .incomplete => .next { s with cmdBuf := pendingWords s, port := [] }

/-- A faulted block accepts a word and discards it (R134; log entry 10). -/
def discardWord (s : State) : State := { s with port := s.port.tail }

/-- The block's turn: a faulted block discards, a block that waits for the transport goes on with its flush when it
can, and any other block takes its next command (R56, R134, R139, R155). -/
def blockTurn (s : State) : Host.Outcome State Fault Refusal :=
  if s.faulted then .next (discardWord s)
  else
    match s.flush with
    | some k => .next (resumeFlush k s)
    | none => takeCommand s

/-- The environment's turn. A word that arrives is taken at once by a block that can take it (R14, R15, R56; log
entry 1). -/
def envTurn (e : EnvEvent) (s : State) : Host.Outcome State Fault Refusal :=
  match e with
  | .turn => blockTurn s
  | .write w => blockTurn { s with port := s.port ++ [w] }
  | .read n =>
    match readReg s n with
    | some v => .next { s with readData := some v }
    | none => .refused (.unmappedRegister n)
  | .acks a => .next { s with acks := a }
  | .reset => .next (resetBlock s)

/-- One step after the drive clock's free advance: the next event of the environment, or the block's turn when the
environment has none (log entry 1). -/
def turn (s : State) : Host.Outcome State Fault Refusal :=
  match s.env with
  | [] => blockTurn s
  | e :: rest => envTurn e { s with env := rest }

/-- One step: the drive clock's free advance (R79), then one turn. -/
def stepBody (s : State) : Host.Outcome State Fault Refusal := turn (elapse s)

/-- The state with a row's words, and nothing else, waiting at the port, and with everything out of the way that would
keep the block from taking them: no event of the environment first, no command or flush in progress, no fault. -/
def placeWords (words : List Word) (s : State) : State :=
  { s with
    port := words
    env := []
    cmdBuf := []
    flush := none
    faulted := false
    faultCause := 0
    faultWord := 0 }

end Sys2Proof.Machine
end

