-- ==== Sys2Proof/Machine/Step.lean ====
section
/-! DEFINITION. One step of the machine, and where the host of the proofs places one instruction for it. -/
namespace Sys2Proof.Machine

/-- One step: the drive clock's free advance, then one turn of the environment or of the block. -/
def step (s : State) : Host.Outcome State Fault Refusal := Sys2Proof.Machine.stepBody s

/-- The state whose next step takes exactly the command with these bits from the port (log entry 11). -/
def State.withFetchWord (s : State) (nbits w : Nat) : State := Sys2Proof.Machine.placeWords (tableWords nbits w) s

end Sys2Proof.Machine
end

