-- ==== Sys2Proof/Machine/Asm.lean ====
section
/-! DEFINITION. The assembler of command interface 1: its syntax, its operand checks and its pseudo-instructions
(spec/30_encoding.md R73, R74). The points R73 leaves open are in log entry 13. -/
namespace Sys2Proof.Machine

/-- The mnemonics of R73 and the pseudo-instructions of R74. -/
inductive Mnemonic where
  | nop | tonePlay | toneStop
  | fbClear | fbSetPixel | fbDrawGlyph | fbDrawString | fbFlush | fbCenter | fbPeek
  | dbSample | dbSetThresh
  | toneSilence | fbPixelOn | fbPixelOff | dbIdle | fbRender
deriving DecidableEq, Repr

/-- One operand of a line (R73). -/
inductive AsmOperand where
  | num (v : Int)
  | text (bytes : List Byte)
  | button (btn : Button)
deriving DecidableEq, Repr

/-- Why the assembler refuses a line. -/
inductive AsmError where
  /-- The first word of the line is no mnemonic. -/
  | unknownMnemonic
  /-- An operand is no number, character, string or button. -/
  | badOperand
  /-- The mnemonic does not take these operands. -/
  | wrongOperands
  /-- An operand does not fit its field, which R73 makes the assembler refuse. -/
  | outOfRange
deriving DecidableEq, Repr

/-- A number that must fit an unsigned field of `n` bits. -/
def asmUnsigned (n : Nat) (v : Int) : Except AsmError (BitVec n) :=
  if 0 ≤ v ∧ v < 2 ^ n then .ok (BitVec.ofInt n v) else .error .outOfRange

/-- A number that must fit a signed field of `n` bits. -/
def asmSigned (n : Nat) (v : Int) : Except AsmError (BitVec n) :=
  if -(2 ^ (n - 1)) ≤ v ∧ v < 2 ^ (n - 1) then .ok (BitVec.ofInt n v) else .error .outOfRange

/-- A string of at most 255 bytes (R73). -/
def asmText (bytes : List Byte) : Except AsmError (List Byte) :=
  if bytes.length ≤ 255 then .ok bytes else .error .outOfRange

/-- FB_SET_PIXEL x, y, color (R73). -/
def asmSetPixel (x y color : Int) : Except AsmError Instr := do
  let x ← asmSigned 16 x
  let y ← asmSigned 16 y
  let c ← asmUnsigned 1 color
  return .fbSetPixel c x y

/-- DB_SAMPLE rawA, rawB, now (R73). -/
def asmSample (rawA rawB now : Int) : Except AsmError Instr := do
  let a ← asmUnsigned 1 rawA
  let b ← asmUnsigned 1 rawB
  let t ← asmUnsigned 32 now
  return .dbSample a b t

/-- The command of a mnemonic and its operands, in the order of R73; a pseudo-instruction gives its expansion (R74). -/
def assemble : Mnemonic → List AsmOperand → Except AsmError Instr
  | .nop, [] => .ok .nop
  | .tonePlay, [.num f] => do
    let f ← asmUnsigned 16 f
    return .tonePlay f
  | .toneStop, [] => .ok .toneStop
  | .fbClear, [] => .ok .fbClear
  | .fbSetPixel, [.num x, .num y, .num c] => asmSetPixel x y c
  | .fbDrawGlyph, [.num ch, .num x, .num y, .num scale] => do
    let ch ← asmUnsigned 8 ch
    let x ← asmSigned 16 x
    let y ← asmSigned 16 y
    let scale ← asmUnsigned 8 scale
    return .fbDrawGlyph ch scale x y
  | .fbDrawString, [.text bytes, .num x, .num y, .num scale, .num spacing] => do
    let bytes ← asmText bytes
    let x ← asmSigned 16 x
    let y ← asmSigned 16 y
    let scale ← asmUnsigned 8 scale
    let spacing ← asmSigned 8 spacing
    return .fbDrawString scale spacing x y bytes
  | .fbFlush, [] => .ok .fbFlush
  | .fbCenter, [.num w, .num h] => do
    let w ← asmUnsigned 16 w
    let h ← asmUnsigned 16 h
    return .fbCenter w h
  | .fbPeek, [.num index] => do
    let index ← asmUnsigned 9 index
    return .fbPeek index
  | .dbSample, [.num a, .num b, .num now] => asmSample a b now
  | .dbSetThresh, [.button btn, .num ms] => do
    let ms ← asmUnsigned 16 ms
    return .dbSetThresh btn ms
  | .toneSilence, [] => .ok (.tonePlay 0)
  | .fbPixelOn, [.num x, .num y] => asmSetPixel x y 1
  | .fbPixelOff, [.num x, .num y] => asmSetPixel x y 0
  | .dbIdle, [.num now] => asmSample 1 1 now
  | .fbRender, [] => .ok .fbFlush
  | _, _ => .error .wrongOperands

/-- The spelling of each mnemonic (R73, R74). -/
def mnemonicNames : List (String × Mnemonic) :=
  [ ("NOP", .nop), ("TONE_PLAY", .tonePlay), ("TONE_STOP", .toneStop), ("FB_CLEAR", .fbClear),
    ("FB_SET_PIXEL", .fbSetPixel), ("FB_DRAW_GLYPH", .fbDrawGlyph), ("FB_DRAW_STRING", .fbDrawString),
    ("FB_FLUSH", .fbFlush), ("FB_CENTER", .fbCenter), ("FB_PEEK", .fbPeek), ("DB_SAMPLE", .dbSample),
    ("DB_SET_THRESH", .dbSetThresh), ("TONE_SILENCE", .toneSilence), ("FB_PIXEL_ON", .fbPixelOn),
    ("FB_PIXEL_OFF", .fbPixelOff), ("DB_IDLE", .dbIdle), ("FB_RENDER", .fbRender) ]

/-- The mnemonic with a spelling. -/
def mnemonicOf (name : List Char) : Except AsmError Mnemonic :=
  match mnemonicNames.find? (fun p => p.1.toList == name) with
  | some p => .ok p.2
  | none => .error .unknownMnemonic

/-- The value of a decimal or hexadecimal digit. -/
def digitValue (c : Char) : Option Nat :=
  let n := c.toNat
  if 0x30 ≤ n ∧ n ≤ 0x39 then some (n - 0x30)
  else if 0x41 ≤ n ∧ n ≤ 0x46 then some (n - 0x41 + 10)
  else if 0x61 ≤ n ∧ n ≤ 0x66 then some (n - 0x61 + 10)
  else none

/-- The number that digits of a base continue. -/
def digitsFrom (base : Nat) : Nat → List Char → Option Nat
  | acc, [] => some acc
  | acc, c :: cs =>
    match digitValue c with
    | some d => if d < base then digitsFrom base (acc * base + d) cs else none
    | none => none

/-- A decimal number, or a hexadecimal one with `0x` (R73). -/
def asmNat : List Char → Option Nat
  | [] => none
  | '0' :: 'x' :: c :: cs => digitsFrom 16 0 (c :: cs)
  | c :: cs => digitsFrom 10 0 (c :: cs)

/-- A number that may be negative (R73). -/
def asmInt : List Char → Option Int
  | '-' :: cs => (asmNat cs).map fun n => -(n : Int)
  | cs => (asmNat cs).map fun n => (n : Int)

/-- Printable ASCII (R73). -/
def printable (c : Char) : Bool := decide (0x20 ≤ c.toNat) && decide (c.toNat ≤ 0x7E)

/-- The bytes of a string after its opening quote: printable ASCII with the three escapes of R73, up to a closing quote
that ends the operand. -/
def stringBody : List Char → Option (List Byte)
  | [] => none
  | ['"'] => some []
  | '\\' :: 'x' :: h :: l :: cs =>
    match digitsFrom 16 0 [h, l] with
    | some n => (stringBody cs).map fun bs => BitVec.ofNat 8 n :: bs
    | none => none
  | '\\' :: '\\' :: cs => (stringBody cs).map fun bs => 0x5C#8 :: bs
  | '\\' :: '"' :: cs => (stringBody cs).map fun bs => 0x22#8 :: bs
  | c :: cs =>
    if printable c && c != '"' && c != '\\' then (stringBody cs).map fun bs => BitVec.ofNat 8 c.toNat :: bs
    else none

/-- One operand: a button's letter, a character between apostrophes, a string, or a number (R73). DESIGN CHOICE (log
entry 13): a character stands for its number wherever a number may stand. -/
def asmOperand (cs : List Char) : Except AsmError AsmOperand :=
  match cs with
  | ['A'] => .ok (.button .a)
  | ['B'] => .ok (.button .b)
  | ['\'', c, '\''] => if printable c then .ok (.num c.toNat) else .error .badOperand
  | '"' :: body =>
    match stringBody body with
    | some bytes => .ok (.text bytes)
    | none => .error .badOperand
  | cs =>
    match asmInt cs with
    | some v => .ok (.num v)
    | none => .error .badOperand

/-- Where a line is, for its commas and its comment: in plain text, in a string, after a backslash in a string, or after
the apostrophe that opens a character or after the character itself. -/
inductive LexMode where
  | plain
  | inString
  | afterBackslash
  | openChar
  | closeChar
deriving DecidableEq, Repr

/-- A line cut at its commas, up to its comment: `cur` is the current part in reverse, `done` the parts before it in
reverse (R73). -/
def splitLine : LexMode → List Char → List (List Char) → List Char → List (List Char)
  | _, cur, done, [] => (cur.reverse :: done).reverse
  | .plain, cur, done, c :: cs =>
    if c = ';' then (cur.reverse :: done).reverse
    else if c = ',' then splitLine .plain [] (cur.reverse :: done) cs
    else if c = '"' then splitLine .inString (c :: cur) done cs
    else if c = '\'' then splitLine .openChar (c :: cur) done cs
    else splitLine .plain (c :: cur) done cs
  | .inString, cur, done, c :: cs =>
    if c = '\\' then splitLine .afterBackslash (c :: cur) done cs
    else if c = '"' then splitLine .plain (c :: cur) done cs
    else splitLine .inString (c :: cur) done cs
  | .afterBackslash, cur, done, c :: cs => splitLine .inString (c :: cur) done cs
  | .openChar, cur, done, c :: cs => splitLine .closeChar (c :: cur) done cs
  | .closeChar, cur, done, c :: cs => splitLine .plain (c :: cur) done cs

/-- A space or a tab. -/
def blankChar (c : Char) : Bool := c == ' ' || c == '\t'

/-- A list of characters without the blanks at its ends. -/
def trimBlanks (cs : List Char) : List Char :=
  ((cs.dropWhile blankChar).reverse.dropWhile blankChar).reverse

/-- The operands of the parts of a line, in order. -/
def asmOperands : List (List Char) → Except AsmError (List AsmOperand)
  | [] => .ok []
  | p :: ps => do
    let o ← asmOperand (trimBlanks p)
    let os ← asmOperands ps
    return o :: os

/-- The command of one line, or none for a line with no command (R73). -/
def assembleLine (line : List Char) : Except AsmError (Option Instr) :=
  match splitLine .plain [] [] line with
  | [] => .ok none
  | part :: parts =>
    let first := trimBlanks part
    if first = [] ∧ parts = [] then .ok none
    else do
      let m ← mnemonicOf (first.takeWhile fun c => !blankChar c)
      let rest := trimBlanks (first.dropWhile fun c => !blankChar c)
      let ops ← asmOperands (if rest = [] ∧ parts = [] then [] else rest :: parts)
      let i ← assemble m ops
      return some i

/-- The words of a program, one command a line (R73). -/
def assembleProgram : List (List Char) → Except AsmError (List Word)
  | [] => .ok []
  | l :: ls => do
    let i ← assembleLine l
    let ws ← assembleProgram ls
    return (match i with
      | some i => encode i ++ ws
      | none => ws)

end Sys2Proof.Machine
end

