-- ==== Sys2Proof/Safety.lean ====
section
/-! DEFINITION. What counts as a safe run, the two stuck states, and the invariant of the machine, in the terms the
statements use. -/
namespace Sys2Proof.Machine

/-- A run that reaches such a state has faulted (R134, I29). -/
def State.hasFaulted (s : State) : Prop := s.faulted = true

/-- The block accepts commands: no fault, no command and no flush in progress (R134, R139). -/
structure State.Ready (s : State) : Prop where
  noFault : s.faulted = false
  noWords : s.cmdBuf = []
  noFlush : s.flush = none

/-- Waiting for words: word 0 of a command is accepted and its extension words have not all arrived (R139). A block
with no word at all is idle and does not wait. -/
def State.waitsForWords (s : State) : Prop :=
  s.faulted = false ∧ s.flush = none ∧ decode (pendingWords s) = .error .incomplete

/-- Waiting for transport: a display call of a flush is issued and the transport does not complete it (R139). -/
def State.waitsForTransport (s : State) : Prop :=
  s.faulted = false ∧ (∃ k, s.flush = some k) ∧ s.acks = some 0

/-- Commands executed one after another, each to completion before the next (R51). -/
def runCommands : List Instr → State → Host.Outcome State Fault Refusal
  | [], s => .next s
  | i :: is, s =>
    match exec i s with
    | .next t => runCommands is t
    | .fault r => .fault r
    | .refused r => .refused r

/-- Every word 0 with this opcode byte and a 1 in one of these bits is refused for its reserved field, whatever words
follow (R71). -/
def reservedRefused (opc : Nat) (mask : Word) : Prop :=
  ∀ (w0 : Word) (ext : List Word), w0.toNat / 2 ^ 24 = opc → w0 &&& mask ≠ 0 →
    decode (w0 :: ext) = .error .reservedField

/-- The commands that draw glyphs (R104). -/
def drawsGlyphs : Instr → Bool
  | .nop => false
  | .tonePlay _ => false
  | .toneStop => false
  | .fbClear => false
  | .fbSetPixel _ _ _ => false
  | .fbDrawGlyph _ _ _ _ => true
  | .fbDrawString _ _ _ _ _ => true
  | .fbFlush => false
  | .fbCenter _ _ => false
  | .fbPeek _ => false
  | .dbSample _ _ _ => false
  | .dbSetThresh _ _ => false

/-- A sample that gives `raw` to one button and `other` to the other one (R113). -/
def sampleOf (btn : Button) (raw other : BitVec 1) (now : Word) : Instr :=
  match btn with
  | .a => .dbSample raw other now
  | .b => .dbSample other raw now

/-- The state of one button. -/
def buttonOf (btn : Button) (s : State) : ButtonState :=
  match btn with
  | .a => s.btnA
  | .b => s.btnB

/-- The commands that flush, and the framebuffer each one sends (R98, R99). -/
def flushes (i : Instr) (s : State) (m : Memory) : Prop :=
  (i = .fbFlush ∧ m = s.fb) ∨ (i = .fbClear ∧ m = [])

/-- A number from `lo` to `hi`. -/
abbrev within (lo hi v : Int) : Prop := lo ≤ v ∧ v ≤ hi

/-- The assembler takes these operands exactly when they fit, and then gives a command with `holds`; else it refuses
them as out of range (R73). -/
def assemblesWhen (m : Mnemonic) (ops : List AsmOperand) (fits : Prop) (holds : Instr → Prop) : Prop :=
  (fits → ∃ i, assemble m ops = .ok i ∧ holds i) ∧ (¬ fits → assemble m ops = .error .outOfRange)

/-- What every state of a run satisfies. -/
structure State.Inv (s : State) : Prop where
  /-- The framebuffer holds bytes 0 to 503 in its canonical form (R28, R40). -/
  fbWf : Memory.wf s.fb
  /-- While the generator runs its period is at least 2, its counter is inside the period (R79), and its high-time is
  half the period or silenced (R77). -/
  toneRuns : s.toneRun = true →
    2 ≤ s.toneTop.toNat ∧ s.toneCnt.toNat < s.toneTop.toNat
      ∧ (s.toneHigh.toNat = s.toneTop.toNat / 2 ∨ s.toneHigh.toNat = 0)
  /-- Without a fault the fault registers are 0 (R35). -/
  noFault : s.faulted = false → s.faultCause = 0 ∧ s.faultWord = 0
  /-- A faulted block holds one of the four causes and no command or flush in progress (R130, R131). -/
  faulted : s.faulted = true →
    (1 ≤ s.faultCause.toNat ∧ s.faultCause.toNat ≤ 4) ∧ s.cmdBuf = [] ∧ s.flush = none
  /-- CMD_BUF holds nothing, or the first words of a command that is not complete (R36). -/
  cmdBuf : s.cmdBuf = [] ∨ decode s.cmdBuf = .error .incomplete
  /-- CMD_BUF holds less than the longest command of 66 words between two steps (R36). -/
  cmdBufLength : s.cmdBuf.length ≤ 65
  /-- The awaited display call is one of the 505 of a flush, and no words are taken meanwhile (R97, R155); that CMD_BUF
  holds none of the flush's own words then is log entry 16. -/
  flush : ∀ k, s.flush = some k → k < 505 ∧ s.cmdBuf = []
  /-- An event is a release: the button that raised it is not pressed (R117). -/
  events : (s.btnA.evt = true → s.btnA.pressed = false) ∧ (s.btnB.evt = true → s.btnB.pressed = false)

end Sys2Proof.Machine
end

