-- ==== Sys2Proof/Certificates/Slice0/Obligations.lean ====
section
/-! DEFINITION. The statements about the block, each from a numbered rule of spec/ or from sections of it. A statement
whose docstring says "derived" rests on a sentence the spec itself derives or on a choice of this model. In every
statement about a step, `elapse` is the drive clock's free advance, which R79 leaves to a draw and this model takes
before the step's act (log entry 2), and `env` and `port` hold what the host does (log entry 1). -/
open Sys2Proof Sys2Proof.Machine

/-! ### Encoding -/

/-- Words written out from R58 to R67 decode to the commands they stand for, one or more for every family. -/
def Obligations.DecodeSpecWords : Prop :=
  decode [0x00000000] = .ok (.nop, [])
    ∧ decode [0x10000190] = .ok (.tonePlay 400, [])
    ∧ decode [0x11000000] = .ok (.toneStop, [])
    ∧ decode [0x21000001, 0xFFFF002F] = .ok (.fbSetPixel 1 (-1) 47, [])
    ∧ decode [0x2202002E, 0x0052002E] = .ok (.fbDrawGlyph 0x2E 2 82 46, [])
    ∧ decode [0x2301FE03, 0x00000008, 0x00412E41] = .ok (.fbDrawString 1 (-2) 0 8 [0x41, 0x2E, 0x41], [])
    ∧ decode [0x260001F7] = .ok (.fbPeek 503, [])
    ∧ decode [0x30000001, 0x000003E8] = .ok (.dbSample 1 0 1000, [])
    ∧ decode [0x310101F4] = .ok (.dbSetThresh .b 500, [])

/-- Decoding the words of a well-formed command, whatever words follow, gives back the command and those words: every
operand bit of every format arrives. -/
def Obligations.DecodeEncodeRoundTrip : Prop :=
  ∀ (i : Instr) (rest : List Word), i.wf = true → decode (encode i ++ rest) = .ok (i, rest)

/-- The other direction: words that decode to a command are that command's own words, but for the ignored bytes of a
string's last TEXT word (R63), and the words left over are the ones after them. -/
def Obligations.DecodedWordsAreEncoded : Prop :=
  ∀ (ws rest : List Word) (i : Instr), decode ws = .ok (i, rest) →
    i.wf = true
      ∧ ws.length = (encode i).length + rest.length
      ∧ rest = ws.drop (encode i).length
      ∧ ws.take 2 = ((encode i) ++ rest).take 2
      ∧ ∀ scale spacing x y text, i = .fbDrawString scale spacing x y text →
          text = (unpackText ((ws.take (encode i).length).drop 2)).take text.length

/-- How many words a decoded command takes, by its opcode byte: two for 0x21, 0x22, 0x25 and 0x30, `2 + (LEN+3) div 4`
for 0x23, one for the others. -/
def Obligations.CommandLengths : Prop :=
  ∀ (w0 : Word) (ext rest : List Word) (i : Instr), decode (w0 :: ext) = .ok (i, rest) →
    ext.length - rest.length =
        (if w0.toNat / 2 ^ 24 ∈ [0x21, 0x22, 0x25, 0x30] then 1
        else if w0.toNat / 2 ^ 24 = 0x23 then 1 + (w0.toNat % 256 + 3) / 4 else 0)
      ∧ rest.length ≤ ext.length

/-- R63: how the words of FB_DRAW_STRING are read. The fields of word 0 and of the XY word, LEN characters, and
character `k` in byte `k mod 4` of TEXT word `k div 4`; no bit of the last TEXT word beyond LEN matters. -/
def Obligations.StringWordsDecode : Prop :=
  ∀ (w0 xy : Word) (tw rest : List Word), w0.toNat / 2 ^ 24 = 0x23 → tw.length = (w0.toNat % 256 + 3) / 4 →
    ∃ (scale spacing : Byte) (x y : Half) (text : List Byte),
      decode (w0 :: xy :: (tw ++ rest)) = .ok (.fbDrawString scale spacing x y text, rest)
        ∧ scale.toNat = w0.toNat / 2 ^ 16 % 256
        ∧ spacing.toNat = w0.toNat / 2 ^ 8 % 256
        ∧ x.toNat = xy.toNat / 2 ^ 16
        ∧ y.toNat = xy.toNat % 2 ^ 16
        ∧ text.length = w0.toNat % 256
        ∧ ∀ (k : Nat) (w : Word), k < w0.toNat % 256 → tw[k / 4]? = some w →
            ∃ ch : Byte, text[k]? = some ch ∧ ch.toNat = w.toNat / 2 ^ (8 * (k % 4)) % 256

/-- R70: a word 0 whose opcode byte is none of the twelve raises ILLEGAL_OPCODE as soon as it arrives, whatever its
other bits and whatever words follow. -/
def Obligations.IllegalOpcodeFaults : Prop :=
  ∀ (s : State) (w : Word) (rest : List Word), s.Ready → s.env = [] → s.port = w :: rest →
    w.toNat / 2 ^ 24 ∉ [0x00, 0x10, 0x11, 0x20, 0x21, 0x22, 0x23, 0x24, 0x25, 0x26, 0x30, 0x31] →
    step s = .next { elapse s with
      port := rest, faulted := true, faultCause := 1, faultWord := w, cmdBuf := [] }

/-- R71: a word 0 with a legal opcode and a reserved bit at 1 raises RESERVED_FIELD as soon as it arrives; one with
every reserved bit at 0 is never refused, whatever its extension words hold. -/
def Obligations.ReservedFieldFaults : Prop :=
  ∀ p ∈ ([(0x00, 0x00FFFFFF), (0x10, 0x00FF0000), (0x11, 0x00FFFFFF), (0x20, 0x00FFFFFF), (0x21, 0x00FFFFFE),
      (0x22, 0x0000FF00), (0x23, 0x00000000), (0x24, 0x00FFFFFF), (0x25, 0x00FFFFFF), (0x26, 0x00FFFE00),
      (0x30, 0x00FFFFFC), (0x31, 0x00FE0000)] : List (Nat × Word)),
    ∀ (s : State) (w : Word) (rest : List Word), s.Ready → s.env = [] → s.port = w :: rest →
      w.toNat / 2 ^ 24 = p.1 →
      (w &&& p.2 ≠ 0 → step s = .next { elapse s with
        port := rest, faulted := true, faultCause := 2, faultWord := w, cmdBuf := [] })
      ∧ (w &&& p.2 = 0 → ∀ ext, decode (w :: ext) = .error .incomplete ∨ ∃ i left, decode (w :: ext) = .ok (i, left))

/-! ### TONE -/

/-- R77, whole: the encoding, the reserved field, silence for 0 with the line low from then on, FREQ_RANGE for 1 to 19
and 20001 to 65535, and the stop-then-start with its four calls for every legal frequency. The leading Stop and the
floor divisions are the spec's decisions D6 and D7. -/
def Obligations.TonePlay : Prop :=
  ∀ (freq : Half) (s : State),
    encode (.tonePlay freq) = [(0x10#8 ++ 0x00#8 ++ freq : BitVec 32)]
      ∧ reservedRefused 0x10 0x00FF0000
      ∧ (freq = 0 →
          exec (.tonePlay freq) s = .next { s with toneHigh := 0, calls := .tone (.setDuty 0) :: s.calls }
            ∧ ∀ n, toneOut (cycles n { s with toneHigh := 0, calls := .tone (.setDuty 0) :: s.calls }) = false)
      ∧ (1 ≤ freq.toNat ∧ freq.toNat ≤ 19 ∨ 20001 ≤ freq.toNat →
          exec (.tonePlay freq) s = .next { s with
            faulted := true, faultCause := 3, faultWord := (0x10#8 ++ 0x00#8 ++ freq : BitVec 32), cmdBuf := [] })
      ∧ (20 ≤ freq.toNat ∧ freq.toNat ≤ 20000 →
          exec (.tonePlay freq) s = .next { s with
            toneRun := true
            toneTop := BitVec.ofNat 32 (Config.driveClkHz / freq.toNat)
            toneHigh := BitVec.ofNat 32 (Config.driveClkHz / freq.toNat / 2)
            toneCnt := 0
            calls := .tone .start :: .tone (.setDuty (BitVec.ofNat 32 (Config.driveClkHz / freq.toNat / 2)))
              :: .tone (.setTop (BitVec.ofNat 32 (Config.driveClkHz / freq.toNat))) :: .tone .stop :: s.calls })

/-- R76: at a legal frequency TONE_TOP is the period count `P_DRIVE_CLK_HZ div f` and TONE_HIGH half of it, neither is
cut by the 32-bit registers, and they are at least 2 and at least 1. -/
def Obligations.TonePeriodFits : Prop :=
  ∀ (freq : Half) (s : State), 20 ≤ freq.toNat → freq.toNat ≤ 20000 →
    ∃ t, exec (.tonePlay freq) s = .next t
      ∧ t.toneTop.toNat = Config.driveClkHz / freq.toNat
      ∧ t.toneHigh.toNat = Config.driveClkHz / freq.toNat / 2
      ∧ t.calls = .tone .start :: .tone (.setDuty t.toneHigh) :: .tone (.setTop t.toneTop) :: .tone .stop :: s.calls
      ∧ 2 ≤ Config.driveClkHz / freq.toNat ∧ Config.driveClkHz / freq.toNat ≤ 2 ^ 32 - 1
      ∧ 1 ≤ Config.driveClkHz / freq.toNat / 2

/-- R78, whole: TONE_STOP always calls Stop, clears TONE_RUN, leaves every other register, and releases the line to
idle. -/
def Obligations.ToneStop : Prop :=
  ∀ s : State,
    encode .toneStop = [0x11000000]
      ∧ reservedRefused 0x11 0x00FFFFFF
      ∧ exec .toneStop s = .next { s with toneRun := false, calls := .tone .stop :: s.calls }
      ∧ ∀ t, exec .toneStop s = .next t → toneOut t = Config.idleLevel

/-- The waveform counter (derived; 40_tone.md section 4): stopped it stands still, running it advances by one modulo
TONE_TOP each drive-clock cycle, `n` cycles from inside a period lead to `(TONE_CNT + n) mod TONE_TOP`, nothing else
changes. Every step starts with one draw of cycles, so a step of a block with nothing to do leads from TONE_CNT to
`(TONE_CNT + draw) mod TONE_TOP`; where the draw is taken is this model's choice (log entry 2). -/
def Obligations.ToneCounterAdvances : Prop :=
  ∀ (s : State) (n : Nat),
    (s.toneRun = false → cycles n s = s)
      ∧ (s.toneRun = true →
          cycles (n + 1) s
            = cycles n { s with toneCnt := BitVec.ofNat 32 ((s.toneCnt.toNat + 1) % s.toneTop.toNat) })
      ∧ (s.toneRun = true → s.toneCnt.toNat < s.toneTop.toNat →
          cycles n s = { s with toneCnt := BitVec.ofNat 32 ((s.toneCnt.toNat + n) % s.toneTop.toNat) })
      ∧ elapse s = { cycles (Config.driveCycles s.draws) s with draws := s.draws + 1 }
      ∧ step s = turn (elapse s)
      ∧ (∀ t, step s = .next t → t.draws = s.draws + 1)
      ∧ (s.Ready → s.env = [] → s.port = [] →
          (s.toneRun = false → step s = .next { s with draws := s.draws + 1 })
          ∧ (s.toneRun = true → s.toneCnt.toNat < s.toneTop.toNat →
              step s = .next { s with
                toneCnt := BitVec.ofNat 32 ((s.toneCnt.toNat + Config.driveCycles s.draws) % s.toneTop.toNat)
                draws := s.draws + 1 }))

/-- The waveform after TONE_PLAY (derived; 40_tone.md section 4, R80 with R81): `n` drive-clock cycles after the
command the line is high exactly when `n mod P < P div 2`, for the period `P` of the frequency, whatever played
before. -/
def Obligations.ToneWaveform : Prop :=
  ∀ (freq : Half) (s : State), 20 ≤ freq.toNat → freq.toNat ≤ 20000 →
    ∃ t, exec (.tonePlay freq) s = .next t ∧ toneOut t = true
      ∧ ∀ n, toneOut (cycles n t)
          = decide (n % (Config.driveClkHz / freq.toNat) < Config.driveClkHz / freq.toNat / 2)

/-- R27: TONE_OUT is the idle level while TONE_RUN = 0, and while TONE_RUN = 1 it is 1 exactly when TONE_CNT <
TONE_HIGH; after reset it is the idle level. -/
def Obligations.ToneOutLevel : Prop :=
  (∀ s : State, toneOut s = if s.toneRun = true then decide (s.toneCnt < s.toneHigh) else false)
    ∧ toneOut State.reset = false

/-- Silence (derived; 40_tone.md section 4, R82): after TONE_PLAY 0 while a tone runs the line is low at every later
drive-clock cycle, while the generator keeps running and counting. -/
def Obligations.ToneSilence : Prop :=
  ∀ s : State, s.Inv → s.toneRun = true →
    ∃ t, exec (.tonePlay 0) s = .next t ∧ t.toneRun = true ∧ t.toneTop = s.toneTop
      ∧ ∀ n, toneOut (cycles n t) = false
          ∧ (cycles n t).toneCnt.toNat = (s.toneCnt.toNat + n) % s.toneTop.toNat

/-- The generated frequency and the duty (derived; 40_tone.md section 5, R85), with exact division. -/
def Obligations.ToneFrequency : Prop :=
  ∀ (freq : Half) (s : State), 20 ≤ freq.toNat → freq.toNat ≤ 20000 →
    ∃ t, exec (.tonePlay freq) s = .next t
      ∧ (freq.toNat : ℚ) ≤ (Config.driveClkHz : ℚ) / t.toneTop.toNat
      ∧ (Config.driveClkHz : ℚ) / t.toneTop.toNat
          < freq.toNat * Config.driveClkHz / (Config.driveClkHz - freq.toNat)
      ∧ ((Config.driveClkHz : ℚ) / t.toneTop.toNat = freq.toNat ↔ freq.toNat ∣ Config.driveClkHz)
      ∧ (t.toneTop.toNat % 2 = 0 → (t.toneHigh.toNat : ℚ) / t.toneTop.toNat = 1 / 2)
      ∧ (t.toneTop.toNat % 2 = 1 →
          (t.toneHigh.toNat : ℚ) / t.toneTop.toNat = (t.toneTop.toNat - 1) / (2 * t.toneTop.toNat))

/-! ### FB -/

/-- R41: a pixel's bit is bit `y mod 8` of byte `x + (y div 8) * 84`, and every bit of the 504 bytes is the bit of
exactly one pixel of the grid. -/
def Obligations.PixelLayout : Prop :=
  (∀ (m : Memory) (x y : Int), 0 ≤ x → x < 84 → 0 ≤ y → y < 48 →
    pixel m x y = (Memory.read m (x + y / 8 * 84).toNat).getLsbD (y % 8).toNat)
  ∧ ∀ a k : Nat, a < 504 → k < 8 →
    ∃! p : Int × Int, (0 ≤ p.1 ∧ p.1 < 84 ∧ 0 ≤ p.2 ∧ p.2 < 48)
      ∧ pixelByte p.1 p.2 = a ∧ pixelBit p.2 = k

/-- R91: inside the grid exactly one bit of one byte is set or cleared; outside it no byte changes, negative
coordinates included. Nothing but FB changes. -/
def Obligations.SetPixelWritesOneBit : Prop :=
  ∀ (color : BitVec 1) (x y : Half) (s : State), Memory.wf s.fb →
    ∃ m, exec (.fbSetPixel color x y) s = .next { s with fb := m } ∧ Memory.wf m
      ∧ (¬ (0 ≤ x.toInt ∧ x.toInt < 84 ∧ 0 ≤ y.toInt ∧ y.toInt < 48) → m = s.fb)
      ∧ (0 ≤ x.toInt ∧ x.toInt < 84 ∧ 0 ≤ y.toInt ∧ y.toInt < 48 →
          ∀ a k : Nat, k < 8 → (Memory.read m a).getLsbD k =
            if a = (x.toInt + y.toInt / 8 * 84).toNat ∧ k = (y.toInt % 8).toNat then decide (color = 1)
            else (Memory.read s.fb a).getLsbD k)

/-- R92's form: the encoding of FB_SET_PIXEL with its reserved bits, and what the command does to every pixel of the
grid. -/
def Obligations.SetPixelCommand : Prop :=
  ∀ (color : BitVec 1) (x y : Half) (s : State), Memory.wf s.fb →
    encode (.fbSetPixel color x y) = [(0x21#8 ++ 0#23 ++ color : BitVec 32), (x ++ y : BitVec 32)]
      ∧ reservedRefused 0x21 0x00FFFFFE
      ∧ ∃ m, exec (.fbSetPixel color x y) s = .next { s with fb := m }
        ∧ ∀ u v : Int, 0 ≤ u → u < 84 → 0 ≤ v → v < 48 →
            pixel m u v = if u = x.toInt ∧ v = y.toInt then decide (color = 1) else pixel s.fb u v

/-- R46: Font gives a glyph for exactly the 66 supported characters. -/
def Obligations.SupportedCharacters : Prop :=
  (∀ c : Byte, (font c).isSome = decide
    ((0x30 ≤ c.toNat ∧ c.toNat ≤ 0x3A) ∨ (0x41 ≤ c.toNat ∧ c.toNat ≤ 0x5A) ∨ (0x61 ≤ c.toNat ∧ c.toNat ≤ 0x7A)
      ∨ c.toNat = 0x20 ∨ c.toNat = 0x2E ∨ c.toNat = 0x21))
  ∧ ((List.range 256).filter fun n => (font (BitVec.ofNat 8 n)).isSome).length = 66

/-- R93 and R94: the encoding of FB_DRAW_GLYPH with its reserved bits; after FB_DRAW_GLYPH a pixel of the grid is set
exactly when it was set or lies in the `scale` by `scale` block of a set bit of the character's own glyph in P_FONT,
bit `row` of column byte `col` (R45); an unsupported character draws nothing. A byte that holds no such point reads as
before, and nothing but FB changes. -/
def Obligations.DrawGlyphPaints : Prop :=
  ∀ (ch scale : Byte) (x y : Half) (s : State), Memory.wf s.fb →
    encode (.fbDrawGlyph ch scale x y) = [(0x22#8 ++ scale ++ 0x00#8 ++ ch : BitVec 32), (x ++ y : BitVec 32)]
      ∧ reservedRefused 0x22 0x0000FF00
      ∧ ∃ m, exec (.fbDrawGlyph ch scale x y) s = .next { s with fb := m } ∧ Memory.wf m
      ∧ (font ch = none → m = s.fb)
      ∧ (∀ u v : Int, 0 ≤ u → u < 84 → 0 ≤ v → v < 48 →
          (pixel m u v = true ↔ pixel s.fb u v = true ∨
            (font ch = some (Config.fontGlyph ch) ∧ ∃ (col row : Nat) (_ : col < 5), row < 8
              ∧ (Config.fontGlyph ch)[col].getLsbD row = true
              ∧ ∃ dx dy : Nat, dx < scale.toNat ∧ dy < scale.toNat
                ∧ u = x.toInt + col * scale.toNat + dx ∧ v = y.toInt + row * scale.toNat + dy)))
      ∧ ∀ a, (∀ p ∈ charPixels font ch x.toInt y.toInt scale.toNat, inGrid p.1 p.2 = true → pixelByte p.1 p.2 ≠ a) →
          Memory.read m a = Memory.read s.fb a

/-- The cases in which FB_DRAW_GLYPH writes nothing (derived; 41_framebuffer.md section 1, R94): SCALE 0, an
unsupported character, and a glyph wholly outside the grid. -/
def Obligations.DrawGlyphCorners : Prop :=
  ∀ (ch scale : Byte) (x y : Half) (s : State),
    (scale = 0 ∨ font ch = none ∨ 84 ≤ x.toInt ∨ 48 ≤ y.toInt ∨ x.toInt + 5 * scale.toNat ≤ 0
        ∨ y.toInt + 8 * scale.toNat ≤ 0) →
      exec (.fbDrawGlyph ch scale x y) s = .next s

/-- R95 and R96: the encoding of FB_DRAW_STRING; after it a pixel of the grid is set exactly when it was set or
belongs to the glyph of a character before the first 0x00, character `k` standing at `x + k * (5 * scale + spacing)`,
supported characters before it or not; the glyph is the character's own in P_FONT (R45). A byte that holds no such point reads as before, and nothing but FB changes. -/
def Obligations.DrawStringPaints : Prop :=
  ∀ (scale spacing : Byte) (x y : Half) (text : List Byte) (s : State), Memory.wf s.fb →
    (∃ tw : List Word,
      encode (.fbDrawString scale spacing x y text)
          = (0x23#8 ++ scale ++ spacing ++ BitVec.ofNat 8 text.length : BitVec 32) :: (x ++ y : BitVec 32) :: tw
        ∧ tw.length = (text.length + 3) / 4
        ∧ ∀ (k : Nat) (ch : Byte), text[k]? = some ch →
            ∃ w : Word, tw[k / 4]? = some w ∧ ch.toNat = w.toNat / 2 ^ (8 * (k % 4)) % 256)
    ∧ ∃ m, exec (.fbDrawString scale spacing x y text) s = .next { s with fb := m } ∧ Memory.wf m
      ∧ (∀ u v : Int, 0 ≤ u → u < 84 → 0 ≤ v → v < 48 →
          (pixel m u v = true ↔ pixel s.fb u v = true ∨
            ∃ (k : Nat) (ch : Byte), text[k]? = some ch ∧ (0x00 : Byte) ∉ text.take (k + 1)
              ∧ font ch = some (Config.fontGlyph ch) ∧ ∃ (col row : Nat) (_ : col < 5), row < 8
                ∧ (Config.fontGlyph ch)[col].getLsbD row = true
                ∧ ∃ dx dy : Nat, dx < scale.toNat ∧ dy < scale.toNat
                  ∧ u = x.toInt + k * (5 * scale.toNat + spacing.toInt) + col * scale.toNat + dx
                  ∧ v = y.toInt + row * scale.toNat + dy))
      ∧ ∀ a, (∀ p ∈ stringPixels font y.toInt scale.toNat spacing.toInt text x.toInt,
            inGrid p.1 p.2 = true → pixelByte p.1 p.2 ≠ a) →
          Memory.read m a = Memory.read s.fb a

/-- Drawing commands only set bits, and the order of two of them does not matter (derived; 41_framebuffer.md section
2, R104). -/
def Obligations.DrawingOrderIrrelevant : Prop :=
  ∀ (i j : Instr) (s : State), drawsGlyphs i = true → drawsGlyphs j = true → Memory.wf s.fb →
    ∃ t, runCommands [i, j] s = .next t ∧ runCommands [j, i] s = .next t
      ∧ ∀ a k : Nat, (Memory.read s.fb a).getLsbD k = true → (Memory.read t.fb a).getLsbD k = true

/-- R98 with R97's order of calls: the encoding of FB_FLUSH with its reserved bits; with a transport that completes
every call it makes the 505 calls of a flush in order, SetCursor(0, 0) and then every byte by rising index, and
changes nothing else; a second flush makes the same calls again. -/
def Obligations.FlushSendsEveryByte : Prop :=
  ∀ s : State, s.acks = none →
    encode .fbFlush = [0x24000000]
      ∧ reservedRefused 0x24 0x00FFFFFF
      ∧ ∃ t u new, exec .fbFlush s = .next t ∧ exec .fbFlush t = .next u
        ∧ new = .disp (.setCursor 0 0) :: (List.range 504).map (fun i => .disp (.data (Memory.read s.fb i)))
        ∧ trace t = trace s ++ new ∧ trace u = trace s ++ new ++ new
        ∧ t = { s with calls := t.calls, flush := none }
        ∧ u = { s with calls := u.calls, flush := none }

/-- A transport that completes only `n` more calls (derived: the count is this model's, log entry 5; the wait is R97's
and R139's): with `n` below 505 FB_FLUSH and FB_CLEAR make `n + 1` calls and wait for the last of them; with 505 or
more they complete. FB_CLEAR's bytes are zero before the first call. -/
def Obligations.FlushWaitsForTransport : Prop :=
  ∀ (i : Instr) (s : State) (m : Memory) (n : Nat), Memory.wf s.fb → flushes i s m → s.acks = some n →
    ∃ t, exec i s = .next t
      ∧ (n < 505 → t = { s with fb := m, calls := t.calls, flush := some n, acks := some 0 }
          ∧ trace t = trace s ++ (((DispCall.setCursor 0 0
              :: (List.range 504).map fun i => .data (Memory.read m i)).take (n + 1)).map Call.disp))
      ∧ (505 ≤ n → t = { s with fb := m, calls := t.calls, flush := none, acks := some (n - 505) }
          ∧ trace t = trace s ++ ((DispCall.setCursor 0 0
              :: (List.range 504).map fun i => .data (Memory.read m i)).map Call.disp))

/-- A block that waits for the transport takes no word, makes no call and changes nothing in its turn. A step that
gives it its turn is the drive clock's free advance alone, and a word the host writes meanwhile waits behind the others
(derived: R139 and R155 in this model's step; log entries 1, 2 and 5). -/
def Obligations.WaitingBlockTakesNoWord : Prop :=
  ∀ s : State, s.waitsForTransport →
    blockTurn s = .next s
      ∧ (s.env = [] → step s = .next (elapse s))
      ∧ (∀ rest, s.env = .turn :: rest → step s = .next { elapse s with env := rest })
      ∧ ∀ w rest, s.env = .write w :: rest → step s = .next { elapse s with env := rest, port := s.port ++ [w] }

/-- A flush that waited and is resumed makes the same 505 calls as one that never waited, in FB_FLUSH and in FB_CLEAR
(derived: R97 in this model's step; log entry 5). This holds when the transport then completes every call, and when it
completes any number `m` of calls more, which may again be too few. -/
def Obligations.ResumedFlushIsWhole : Prop :=
  ∀ (i : Instr) (s : State) (n : Nat), (i = .fbFlush ∨ i = .fbClear) → s.faulted = false → s.acks = some n → n < 505 →
    ∃ t, exec i s = .next t
      ∧ (∃ u, blockTurn { t with acks := none } = .next u ∧ exec i { s with acks := none } = .next u)
      ∧ ∀ m : Nat, ∃ u, blockTurn { t with acks := some m } = .next u ∧ exec i { s with acks := some (n + m) } = .next u

/-- R99: FB_CLEAR zeroes every byte before its first call and then flushes: SetCursor(0, 0) and 504 zero bytes,
whatever FB held. -/
def Obligations.ClearZeroesThenFlushes : Prop :=
  ∀ s : State, Memory.wf s.fb → s.acks = none →
    encode .fbClear = [0x20000000]
      ∧ reservedRefused 0x20 0x00FFFFFF
      ∧ ∃ t, exec .fbClear s = .next t
        ∧ trace t = trace s ++ (.disp (.setCursor 0 0) :: List.replicate 504 (.disp (.data 0x00)))
        ∧ (∀ a, Memory.read t.fb a = 0x00)
        ∧ t = { s with fb := [], calls := t.calls, flush := none }

/-- R100 and R101: FB_CENTER writes `max(0, (84 - w) div 2)` and `max(0, (48 - h) div 2)` and nothing else. -/
def Obligations.CenterOrigin : Prop :=
  ∀ (w h : Half) (s : State),
    encode (.fbCenter w h) = [0x25000000, (w ++ h : BitVec 32)]
      ∧ reservedRefused 0x25 0x00FFFFFF
      ∧ ∃ t, exec (.fbCenter w h) s = .next t
        ∧ (t.fbCenterX.toNat : Int) = max 0 ((84 - (w.toNat : Int)) / 2)
        ∧ (t.fbCenterY.toNat : Int) = max 0 ((48 - (h.toNat : Int)) / 2)
        ∧ t = { s with fbCenterX := t.fbCenterX, fbCenterY := t.fbCenterY }

/-- R102, whole: FB_PEEK reads one byte into FB_RDATA, and an index from 504 to 511 raises PEEK_RANGE. -/
def Obligations.PeekReadsOneByte : Prop :=
  ∀ (index : BitVec 9) (s : State),
    encode (.fbPeek index) = [(0x26#8 ++ 0#15 ++ index : BitVec 32)]
      ∧ reservedRefused 0x26 0x00FFFE00
      ∧ (index.toNat < 504 →
          exec (.fbPeek index) s = .next { s with fbRdata := Memory.read s.fb index.toNat })
      ∧ (504 ≤ index.toNat →
          exec (.fbPeek index) s = .next { s with
            faulted := true, faultCause := 4, faultWord := (0x26#8 ++ 0#15 ++ index : BitVec 32), cmdBuf := [] })

/-! ### DB -/

/-- R112 and R113: what a sample does to button A and to button B in each of the cases of Step_i, and that it changes
nothing else. -/
def Obligations.SampleSteps : Prop :=
  ∀ (rawA rawB : BitVec 1) (now : Word) (s : State),
    encode (.dbSample rawA rawB now) = [(0x30#8 ++ 0#22 ++ rawB ++ rawA : BitVec 32), now]
      ∧ reservedRefused 0x30 0x00FFFFFC
      ∧ ∃ a b, exec (.dbSample rawA rawB now) s = .next { s with btnA := a, btnB := b }
        ∧ ∀ p ∈ [(rawA, s.btnA, a), (rawB, s.btnB, b)],
          (p.1 = 0 → p.2.1.pressed = false → p.2.2 = { p.2.1 with evt := false, start := now, pressed := true })
          ∧ (p.1 = 1 → p.2.1.pressed = true → p.2.2 = { p.2.1 with
              evt := true
              pressed := false
              dur := BitVec.ofInt 32 ((now.toNat : Int) - p.2.1.start.toNat)
              long := decide (p.2.1.thresh.toNat ≤ (((now.toNat : Int) - p.2.1.start.toNat) % 2 ^ 32).toNat) })
          ∧ (p.1 = 0 → p.2.1.pressed = true → p.2.2 = { p.2.1 with evt := false })
          ∧ (p.1 = 1 → p.2.1.pressed = false → p.2.2 = { p.2.1 with evt := false })

/-- R115: a release of either button is long exactly when its duration is at least the threshold as it stands at the
release sample; a tie is long. -/
def Obligations.ReleaseClassified : Prop :=
  ∀ (btn : Button) (other : BitVec 1) (now : Word) (s : State), (buttonOf btn s).pressed = true →
    ∃ t, exec (sampleOf btn 1 other now) s = .next t ∧ (buttonOf btn t).evt = true
      ∧ ((buttonOf btn t).long = true ↔ (buttonOf btn s).thresh.toNat ≤ (buttonOf btn t).dur.toNat)
      ∧ ((buttonOf btn t).long = false ↔ (buttonOf btn t).dur.toNat < (buttonOf btn s).thresh.toNat)
      ∧ ((buttonOf btn t).dur.toNat = (buttonOf btn s).thresh.toNat → (buttonOf btn t).long = true)

/-- The buttons are independent and alike (derived; 42_debouncer.md sections 1 and 3, R110, R118): two buttons, the
same one or different ones, that start in the same state and see the same level at the same time end in the same
state, whatever the other button of each machine does. -/
def Obligations.ButtonsIndependent : Prop :=
  ∀ (btn btn' : Button) (raw other other' : BitVec 1) (now : Word) (s s' : State), buttonOf btn s = buttonOf btn' s' →
    ∃ t t', exec (sampleOf btn raw other now) s = .next t ∧ exec (sampleOf btn' raw other' now) s' = .next t'
      ∧ buttonOf btn t = buttonOf btn' t'

/-- One event a hold (derived; 42_debouncer.md section 3, R117): from the press on, no sample that finds the button
pressed raises an event, however many there are and whatever the other button does, and the release raises one with
the time since the press. -/
def Obligations.HeldButtonOneEvent : Prop :=
  ∀ (btn : Button) (holds : List (BitVec 1 × Word)) (other other' : BitVec 1) (pressed released : Word) (s : State),
    (buttonOf btn s).pressed = false →
    ∃ t u, runCommands (sampleOf btn 0 other pressed :: holds.map fun h => sampleOf btn 0 h.1 h.2) s = .next t
      ∧ (buttonOf btn t).evt = false ∧ (buttonOf btn t).pressed = true ∧ (buttonOf btn t).start = pressed
      ∧ exec (sampleOf btn 1 other' released) t = .next u
      ∧ (buttonOf btn u).evt = true ∧ (buttonOf btn u).pressed = false ∧ (buttonOf btn u).dur = released - pressed

/-- Only DB_SAMPLE changes PRESSED, START, EVT, LONG and DUR of a button (derived; 42_debouncer.md section 3, R119).
-/
def Obligations.OnlySampleChangesButtons : Prop :=
  ∀ (i : Instr) (s : State), (∀ a b now, i ≠ .dbSample a b now) →
    ∃ t, exec i s = .next t
      ∧ t.btnA = { s.btnA with thresh := t.btnA.thresh } ∧ t.btnB = { s.btnB with thresh := t.btnB.thresh }
      ∧ ((∀ btn ms, i ≠ .dbSetThresh btn ms) → t.btnA = s.btnA ∧ t.btnB = s.btnB)

/-- R116, whole: DB_SET_THRESH loads one threshold and changes nothing else. -/
def Obligations.SetThreshold : Prop :=
  ∀ (ms : Half) (s : State),
    encode (.dbSetThresh .a ms) = [(0x31#8 ++ 0#7 ++ 0#1 ++ ms : BitVec 32)]
      ∧ encode (.dbSetThresh .b ms) = [(0x31#8 ++ 0#7 ++ 1#1 ++ ms : BitVec 32)]
      ∧ reservedRefused 0x31 0x00FE0000
      ∧ exec (.dbSetThresh .a ms) s = .next { s with btnA := { s.btnA with thresh := ms } }
      ∧ exec (.dbSetThresh .b ms) s = .next { s with btnB := { s.btnB with thresh := ms } }

/-! ### System command and read port -/

/-- R125, whole: NOP changes nothing and calls nothing. -/
def Obligations.NopDoesNothing : Prop :=
  ∀ s : State, encode .nop = [0x00000000] ∧ reservedRefused 0x00 0x00FFFFFF ∧ exec .nop s = .next s

/-- R21 and R22: what each register number reads as, bit for bit, and that 0x0D to 0xFF have no value. -/
def Obligations.RegisterMap : Prop :=
  ∀ s : State,
    (∃ v, readReg s 0x00 = some v
      ∧ v.toNat = s.toneRun.toNat + 2 * s.faulted.toNat + 16 * s.faultCause.toNat)
    ∧ readReg s 0x01 = some s.toneTop
    ∧ readReg s 0x02 = some s.toneHigh
    ∧ (∃ v, readReg s 0x03 = some v ∧ v.toNat = s.fbRdata.toNat)
    ∧ (∃ v, readReg s 0x04 = some v ∧ v.toNat = 65536 * s.fbCenterX.toNat + s.fbCenterY.toNat)
    ∧ (∃ v, readReg s 0x05 = some v ∧ v.toNat = s.btnA.pressed.toNat + 2 * s.btnB.pressed.toNat
        + 4 * s.btnA.evt.toNat + 8 * s.btnB.evt.toNat + 16 * s.btnA.long.toNat + 32 * s.btnB.long.toNat)
    ∧ readReg s 0x06 = some s.btnA.start
    ∧ readReg s 0x07 = some s.btnB.start
    ∧ readReg s 0x08 = some s.btnA.dur
    ∧ readReg s 0x09 = some s.btnB.dur
    ∧ (∃ v, readReg s 0x0A = some v ∧ v.toNat = s.btnA.thresh.toNat)
    ∧ (∃ v, readReg s 0x0B = some v ∧ v.toNat = s.btnB.thresh.toNat)
    ∧ readReg s 0x0C = some s.faultWord
    ∧ ∀ n : Byte, 0x0D ≤ n.toNat → readReg s n = none

/-- R126: a read of a mapped register, at any moment, answers its value and has no side effect on the block; a read of
an unmapped one is refused. The drive clock's free advance and the answer's field are this model's (log entries 2, 7).
-/
def Obligations.ReadHasNoSideEffect : Prop :=
  ∀ (s : State) (n : Byte) (rest : List EnvEvent), s.env = .read n :: rest →
    (n.toNat ≤ 0x0C → ∃ v, readReg s n = some v
      ∧ step s = .next { elapse s with env := rest, readData := some v })
    ∧ (0x0D ≤ n.toNat → step s = .refused (.unmappedRegister n))

/-! ### Faults -/

/-- R130: from a block that accepts commands, the word 0 that arrives decides the fault: which cause, if any, and that
the word is recorded; no other command faults. -/
def Obligations.WordZeroDecidesFault : Prop :=
  ∀ (s : State) (w : Word) (rest : List Word), s.Ready → s.env = [] → s.port = w :: rest →
    s.faultCause = 0 → s.faultWord = 0 →
    ∃ t, step s = .next t
      ∧ t.faultCause =
        (match Opcode.ofByte (opcodeByte w) with
         | none => 1
         | some o =>
           if w &&& o.reservedMask ≠ 0 then 2
           else if o = .tonePlay ∧ w.toNat % 65536 ≠ 0 ∧ (w.toNat % 65536 < 20 ∨ 20000 < w.toNat % 65536) then 3
           else if o = .fbPeek ∧ 504 ≤ w.toNat % 512 then 4
           else 0)
      ∧ (t.faultCause = 0 → t.faulted = false ∧ t.faultWord = 0)
      ∧ (t.faultCause ≠ 0 → t.faulted = true ∧ t.faultWord = w ∧ t.cmdBuf = [])

/-- R131: a fault writes FAULTED, FAULT_CAUSE, FAULT_WORD and CMD_BUF, and does nothing else: first for a command that
faults in its execution, in any state; then for any fault a step raises, which also takes word 0 from the port. The
drive clock's free advance stands beside it. -/
def Obligations.FaultEntryOnly : Prop :=
  (∀ (i : Instr) (s t : State), s.faulted = false → exec i s = .next t → t.faulted = true →
    t = { s with faulted := true, faultCause := t.faultCause, faultWord := i.word0, cmdBuf := [] }
      ∧ (t.faultCause = 3 ∧ (∃ freq, i = .tonePlay freq) ∨ t.faultCause = 4 ∧ ∃ index, i = .fbPeek index))
  ∧ ∀ (s t : State) (w : Word) (rest : List Word), s.Ready → s.env = [] → s.port = w :: rest →
    step s = .next t → t.faulted = true →
      t = { elapse s with port := rest, faulted := true, faultCause := t.faultCause, faultWord := w, cmdBuf := [] }

/-- R133: the checks are made in the order opcode, reserved field, operand, with the rule's two words. -/
def Obligations.FaultPriority : Prop :=
  ∀ (s : State) (rest : List Word), s.Ready → s.env = [] →
    (s.port = 0xFF000001 :: rest → ∃ t, step s = .next t ∧ t.faultCause = 1)
    ∧ (s.port = 0x10010005 :: rest → ∃ t, step s = .next t ∧ t.faultCause = 2)
    ∧ (s.port = 0x10000005 :: rest → ∃ t, step s = .next t ∧ t.faultCause = 3)

/-- R134 and R135: a faulted block discards the next word and does nothing else; no step that is not a reset changes
its fault, its framebuffer, its buttons, its tone or the calls made. Discarding one word a step is this model's (log
entry 10). -/
def Obligations.FaultedBlockIsQuiescent : Prop :=
  ∀ s : State, s.faulted = true →
    (s.env = [] → step s = .next { elapse s with port := s.port.tail })
    ∧ ∀ t, step s = .next t → s.env.head? ≠ some .reset →
        t.faulted = true ∧ t.faultCause = s.faultCause ∧ t.faultWord = s.faultWord ∧ t.fb = s.fb
          ∧ t.calls = s.calls ∧ t.btnA = s.btnA ∧ t.btnB = s.btnB ∧ t.fbRdata = s.fbRdata
          ∧ t.fbCenterX = s.fbCenterX ∧ t.fbCenterY = s.fbCenterY
          ∧ t.toneRun = s.toneRun ∧ t.toneTop = s.toneTop ∧ t.toneHigh = s.toneHigh

/-! ### Reset, step and the whole machine -/

/-- R39: every piece of the block's state after reset, and the register values the rule lists. -/
def Obligations.ResetValues : Prop :=
  (State.reset.toneRun = false ∧ State.reset.toneTop = 0 ∧ State.reset.toneHigh = 0 ∧ State.reset.toneCnt = 0
    ∧ toneOut State.reset = Config.idleLevel ∧ (∀ i, Memory.read State.reset.fb i = 0x00)
    ∧ State.reset.fbRdata = 0 ∧ State.reset.fbCenterX = 0 ∧ State.reset.fbCenterY = 0
    ∧ State.reset.btnA = { pressed := false, evt := false, long := false, start := 0, dur := 0, thresh := 1000 }
    ∧ State.reset.btnB = { pressed := false, evt := false, long := false, start := 0, dur := 0, thresh := 500 }
    ∧ State.reset.faulted = false ∧ State.reset.faultCause = 0 ∧ State.reset.faultWord = 0
    ∧ State.reset.cmdBuf = [] ∧ State.reset.flush = none)
  ∧ ((List.range 13).map fun n => readReg State.reset (BitVec.ofNat 8 n))
      = [some 0, some 0, some 0, some 0, some 0, some 0, some 0, some 0, some 0, some 0, some 0x3E8, some 0x1F4,
         some 0]

/-- R151 with R152: reset at any moment, in a fault or inside a command or a flush, gives every piece of the block's
state its reset value, makes no call, and leaves no word to take. What else the environment holds is kept, which is
this model's choice (log entry 9). -/
def Obligations.ResetEvent : Prop :=
  ∀ (s : State) (rest : List EnvEvent), s.env = .reset :: rest →
    step s = .next { State.reset with
      port := [], env := rest, acks := s.acks, calls := s.calls, readData := s.readData, draws := s.draws + 1 }

/-- A step runs the decoded command (derived): when the words at the front of the port are those of a well-formed
command, one step of a block that accepts commands is the drive clock's free advance, the move past those words, and
exec of the command. That the free advance passes before the command is log entry 2, that one whole command at the port
is one step is log entry 1, and that the command, also one that waits inside a flush, runs with CMD_BUF empty is log
entry 16. -/
def Obligations.StepRunsDecoded : Prop :=
  ∀ (s : State) (i : Instr) (rest : List Word), s.Ready → s.env = [] → decode s.port = .ok (i, rest) →
    step s = exec i { elapse s with port := rest }

/-- The same when the environment gives the block its turn, and when a word arrives: the block then takes its turn with
that word behind the ones that wait (derived: the events and the turn in the word's own step are log entry 1, the free
advance before them log entry 2). -/
def Obligations.TurnEventRunsBlock : Prop :=
  ∀ (s : State) (rest : List EnvEvent),
    (s.env = .turn :: rest → step s = blockTurn { elapse s with env := rest })
      ∧ ∀ w, s.env = .write w :: rest → step s = blockTurn { elapse s with env := rest, port := s.port ++ [w] }

/-- A word that arrives at a block that can take it is decoded at once, with the words collected so far (derived: R56 in
this model's step). An illegal opcode or a reserved bit faults at once; an unfinished command is collected in CMD_BUF,
with no other effect; the last word of a command executes it. CMD_BUF is emptied before the command executes, an order
that R36 leaves open and this model chooses (log entry 16); the event and the free advance before it are log entries 1
and 2. -/
def Obligations.WordArrives : Prop :=
  ∀ (s : State) (w : Word) (rest : List EnvEvent), s.faulted = false → s.flush = none → s.port = [] →
    s.env = .write w :: rest →
    (decode (s.cmdBuf ++ [w]) = .error .illegalOpcode →
        step s = .next { elapse s with
          env := rest, port := (s.cmdBuf ++ [w]).tail, faulted := true, faultCause := 1,
          faultWord := (s.cmdBuf ++ [w]).headD 0, cmdBuf := [] })
      ∧ (decode (s.cmdBuf ++ [w]) = .error .reservedField →
        step s = .next { elapse s with
          env := rest, port := (s.cmdBuf ++ [w]).tail, faulted := true, faultCause := 2,
          faultWord := (s.cmdBuf ++ [w]).headD 0, cmdBuf := [] })
      ∧ (decode (s.cmdBuf ++ [w]) = .error .incomplete →
        step s = .next { elapse s with env := rest, cmdBuf := s.cmdBuf ++ [w] })
      ∧ ∀ i, decode (s.cmdBuf ++ [w]) = .ok (i, []) →
        step s = exec i { elapse s with env := rest, cmdBuf := [] }

/-- Waiting for words (derived: R56 and R139 in this model's step): a part of a command's words is collected and
changes nothing else, and when the rest has come the command executes as if its words had come together. That it runs
with CMD_BUF empty is log entry 16, the port and the free advance are log entries 1 and 2. -/
def Obligations.SplitCommandWaits : Prop :=
  ∀ (s : State) (i : Instr) (n : Nat) (rest : List Word), i.wf = true → s.Ready → s.env = [] →
    0 < n → n < (encode i).length →
    (s.port = (encode i).take n →
      step s = .next { elapse s with cmdBuf := (encode i).take n, port := [] }
        ∧ { s with cmdBuf := (encode i).take n, port := [] }.waitsForWords)
    ∧ step { s with cmdBuf := (encode i).take n, port := (encode i).drop n ++ rest }
        = exec i { elapse s with port := rest }

/-- Every command completes in exec, in every state (derived; R127, and R134 and R139 for a fault and a flush that
waits). That a fault and a waiting flush are next states is this model's choice (log entry 8); port and env, draws, and
readData are its own fields (log entries 1, 2 and 7). -/
def Obligations.EveryCommandCompletes : Prop :=
  ∀ (i : Instr) (s : State), ∃ t, exec i s = .next t
    ∧ t.port = s.port ∧ t.env = s.env ∧ t.readData = s.readData ∧ t.draws = s.draws

/-- The invariant holds after reset. -/
def Obligations.ResetInvariant : Prop := State.reset.Inv

/-- Every step keeps the invariant: the framebuffer's form and range, the generator's period, the fault registers,
what CMD_BUF and the transport progress can hold, and that an event is a release. That CMD_BUF is empty while a flush
waits is this model's choice (log entry 16). -/
def Obligations.StepKeepsInvariant : Prop :=
  ∀ s t : State, s.Inv → step s = .next t → t.Inv

/-- R16's promise over every step: the block never calls `writeCommandByte`; and no call once made is taken back. -/
def Obligations.NeverCommandByte : Prop :=
  ∀ s t : State, step s = .next t →
    ∃ new, t.calls = new ++ s.calls ∧ ∀ b, Call.disp (.command b) ∉ new

/-- The one thing a step stops on is a host's read of an unmapped register, which R126 refuses. -/
def Obligations.OnlyUnmappedReadStops : Prop :=
  ∀ s : State,
    (∃ t, step s = .next t)
      ∨ ∃ n rest, s.env = .read n :: rest ∧ 0x0D ≤ n.toNat ∧ step s = .refused (.unmappedRegister n)

/-! ### Assembler -/

/-- R74: each pseudo-instruction assembles to the words of its expansion. -/
def Obligations.PseudoInstructions : Prop :=
  ∀ x y now : Int,
    assemble .toneSilence [] = assemble .tonePlay [.num 0]
      ∧ assemble .fbPixelOn [.num x, .num y] = assemble .fbSetPixel [.num x, .num y, .num 1]
      ∧ assemble .fbPixelOff [.num x, .num y] = assemble .fbSetPixel [.num x, .num y, .num 0]
      ∧ assemble .dbIdle [.num now] = assemble .dbSample [.num 1, .num 1, .num now]
      ∧ assemble .fbRender [] = assemble .fbFlush []

/-- The assembler refuses every operand outside its field's range, and otherwise encodes exactly the numbers given
(derived; 30_encoding.md section 5): every operand of every command that has one. -/
def Obligations.AssemblerChecksOperands : Prop :=
  (∀ f : Int, assemblesWhen .tonePlay [.num f] (within 0 65535 f)
      fun i => ∃ freq : Half, i = .tonePlay freq ∧ (freq.toNat : Int) = f)
  ∧ (∀ x y c : Int, assemblesWhen .fbSetPixel [.num x, .num y, .num c]
      (within (-32768) 32767 x ∧ within (-32768) 32767 y ∧ within 0 1 c)
      fun i => ∃ (color : BitVec 1) (hx hy : Half), i = .fbSetPixel color hx hy
        ∧ (color.toNat : Int) = c ∧ hx.toInt = x ∧ hy.toInt = y)
  ∧ (∀ ch x y scale : Int, assemblesWhen .fbDrawGlyph [.num ch, .num x, .num y, .num scale]
      (within 0 255 ch ∧ within (-32768) 32767 x ∧ within (-32768) 32767 y ∧ within 0 255 scale)
      fun i => ∃ (c sc : Byte) (hx hy : Half), i = .fbDrawGlyph c sc hx hy
        ∧ (c.toNat : Int) = ch ∧ (sc.toNat : Int) = scale ∧ hx.toInt = x ∧ hy.toInt = y)
  ∧ (∀ (text : List Byte) (x y scale spacing : Int),
      assemblesWhen .fbDrawString [.text text, .num x, .num y, .num scale, .num spacing]
        (text.length ≤ 255 ∧ within (-32768) 32767 x ∧ within (-32768) 32767 y ∧ within 0 255 scale
          ∧ within (-128) 127 spacing)
        fun i => ∃ (sc sp : Byte) (hx hy : Half), i = .fbDrawString sc sp hx hy text
          ∧ (sc.toNat : Int) = scale ∧ sp.toInt = spacing ∧ hx.toInt = x ∧ hy.toInt = y)
  ∧ (∀ w h : Int, assemblesWhen .fbCenter [.num w, .num h] (within 0 65535 w ∧ within 0 65535 h)
      fun i => ∃ hw hh : Half, i = .fbCenter hw hh ∧ (hw.toNat : Int) = w ∧ (hh.toNat : Int) = h)
  ∧ (∀ index : Int, assemblesWhen .fbPeek [.num index] (within 0 511 index)
      fun i => ∃ k : BitVec 9, i = .fbPeek k ∧ (k.toNat : Int) = index)
  ∧ (∀ rawA rawB now : Int, assemblesWhen .dbSample [.num rawA, .num rawB, .num now]
      (within 0 1 rawA ∧ within 0 1 rawB ∧ within 0 4294967295 now)
      fun i => ∃ (a b : BitVec 1) (t : Word), i = .dbSample a b t
        ∧ (a.toNat : Int) = rawA ∧ (b.toNat : Int) = rawB ∧ (t.toNat : Int) = now)
  ∧ ∀ (btn : Button) (ms : Int), assemblesWhen .dbSetThresh [.button btn, .num ms] (within 0 65535 ms)
      fun i => ∃ v : Half, i = .dbSetThresh btn v ∧ (v.toNat : Int) = ms

/-! ### Waiting for words -/

/-- A block that waits for words stays so until the host's next word (derived: R139 in this model's step; log entries 1
and 2): a step with no word collects in CMD_BUF what stands at the port, has no other effect but the drive clock's free
advance, and still waits. After reset the block does not wait. -/
def Obligations.WaitingForWordsPersists : Prop :=
  ¬ State.reset.waitsForWords
  ∧ ∀ s : State, s.waitsForWords →
    (s.env = [] →
      step s = .next { elapse s with cmdBuf := pendingWords s, port := [] }
        ∧ { elapse s with cmdBuf := pendingWords s, port := [] }.waitsForWords)
    ∧ ∀ rest, s.env = .turn :: rest →
      step s = .next { elapse s with cmdBuf := pendingWords s, port := [], env := rest }
        ∧ { elapse s with cmdBuf := pendingWords s, port := [], env := rest }.waitsForWords

/-! ### The transport's completion, and the font -/

/-- The transport's completion ends the wait (derived: R97 and R139 in this model's step; log entries 1, 2 and 5). The
event changes only what the transport completes, in every state. A block that waits for call `k` of a flush then makes,
in its next turn, all the calls that are left when the transport completes every one, and exactly the next one when it
completes one; when `k` is the last call the flush is over. -/
def Obligations.CompletionEndsWait : Prop :=
  (∀ (s : State) (a : Option Nat) (rest : List EnvEvent), s.env = .acks a :: rest →
    step s = .next { elapse s with env := rest, acks := a })
  ∧ ∀ (s : State) (k : Nat), s.waitsForTransport → s.flush = some k → k < 505 →
    (s.env = [.acks none] → ∃ t u, step s = .next t ∧ step t = .next u
      ∧ u = { elapse t with calls := u.calls, flush := none }
      ∧ trace u = trace s
          ++ ((DispCall.setCursor 0 0 :: (List.range 504).map fun i => .data (Memory.read s.fb i)).drop (k + 1)).map
            Call.disp)
    ∧ (s.env = [.acks (some 1)] → ∃ t, step s = .next t
      ∧ (k < 504 → step t = .next { elapse t with
          calls := .disp (.data (Memory.read s.fb k)) :: s.calls, flush := some (k + 1), acks := some 0 })
      ∧ (k = 504 → step t = .next { elapse t with flush := none, acks := some 0 }))

/-- R45: bit `row` of column byte `col` is `g(col, row)`, and a glyph drawn at scale 1 on a band boundary puts its five
column bytes into five consecutive FB bytes: each is ORed with its column byte, so that into bytes of 0x00 they are
copied, and every other byte stays. -/
def Obligations.GlyphCopiesColumns : Prop :=
  (∀ (g : Glyph) (col row : Nat) (_ : col < 5), glyphBit g col row = g[col].getLsbD row)
  ∧ ∀ (ch : Byte) (x y : Half) (s : State), Memory.wf s.fb → (font ch).isSome = true →
    0 ≤ x.toInt → x.toInt ≤ 79 → 0 ≤ y.toInt → y.toInt ≤ 40 → y.toInt % 8 = 0 →
    ∃ m, exec (.fbDrawGlyph ch 1 x y) s = .next { s with fb := m }
      ∧ (∀ (col : Nat) (_ : col < 5),
          Memory.read m ((x.toInt + y.toInt / 8 * 84).toNat + col)
            = Memory.read s.fb ((x.toInt + y.toInt / 8 * 84).toNat + col) ||| (Config.fontGlyph ch)[col])
      ∧ ∀ a : Nat, a < (x.toInt + y.toInt / 8 * 84).toNat ∨ (x.toInt + y.toInt / 8 * 84).toNat + 5 ≤ a →
          Memory.read m a = Memory.read s.fb a
end

