-- ==== Sys2Proof/Laws/Button.lean ====
section
/-! SUPPORT. The four cases of one button's step in a sample (R112). -/
namespace Sys2Proof.Machine

/-- A press: the time is recorded, no event. -/
theorem sampleButton_press {b : ButtonState} (now : Word) (h : b.pressed = false) :
    sampleButton 0 now b = { b with evt := false, start := now, pressed := true } := by
  simp [sampleButton, pressedOf, h]

/-- A release: an event with its duration and its class. -/
theorem sampleButton_release {b : ButtonState} (now : Word) (h : b.pressed = true) :
    sampleButton 1 now b
      = { b with evt := true, dur := now - b.start, long := isLong (now - b.start) b.thresh, pressed := false } := by
  simp [sampleButton, pressedOf, heldFor, h]

/-- A button still held: no event. -/
theorem sampleButton_held {b : ButtonState} (now : Word) (h : b.pressed = true) :
    sampleButton 0 now b = { b with evt := false } := by
  simp [sampleButton, pressedOf, h]

/-- A button still up: no event. -/
theorem sampleButton_up {b : ButtonState} (now : Word) (h : b.pressed = false) :
    sampleButton 1 now b = { b with evt := false } := by
  simp [sampleButton, pressedOf, h]

/-- The held duration is the difference of the two times modulo 2^32 (R114). -/
theorem heldFor_toNat (now start : Word) :
    (heldFor now start).toNat = (((now.toNat : Int) - start.toNat) % 2 ^ 32).toNat := by
  rw [heldFor, BitVec.toNat_sub]
  have := now.isLt
  have := start.isLt
  omega

/-- A sample leaves an event only with a button that is not pressed (R117). -/
theorem sampleButton_evt (raw : BitVec 1) (now : Word) (b : ButtonState) (h : (sampleButton raw now b).evt = true) :
    (sampleButton raw now b).pressed = false := by
  unfold sampleButton at h ⊢
  by_cases h1 : (pressedOf raw && !b.pressed) = true
  · simp [h1] at h
  · by_cases h2 : (!pressedOf raw && b.pressed) = true
    · simp [h1, h2]
    · simp [h1, h2] at h

end Sys2Proof.Machine
end

