-- ==== Sys2Proof/Laws/Config.lean ====
section
/-! SUPPORT. The bounds R7 puts on the drive clock, which hold whatever its free seed is. -/
namespace Sys2Proof

theorem driveClkHz_ge : 40000 ≤ Config.driveClkHz := by
  simp only [Config.driveClkHz, Config.freqMax]
  omega

theorem driveClkHz_lt : Config.driveClkHz < 20 * 2 ^ 32 := by
  have h : Config.driveClkSeed % (20 * 2 ^ 32 - 2 * 20000) < 20 * 2 ^ 32 - 2 * 20000 := Nat.mod_lt _ (by decide)
  simp only [Config.driveClkHz, Config.freqMax, Config.freqMin, Config.toneBits]
  omega

/-- The configuration of this model is legal, so there is none to refuse (R7). -/
theorem params_wf : Config.params.wf = true := by
  have h1 := driveClkHz_ge
  have h2 := driveClkHz_lt
  simp only [Params.wf, Config.params, Bool.and_eq_true]
  refine ⟨⟨⟨⟨by decide, decide_eq_true h1⟩, decide_eq_true ?_⟩, by decide⟩, by decide⟩
  show Config.driveClkHz / 20 ≤ 2 ^ 32 - 1
  omega

end Sys2Proof
end

