-- ==== Sys2Proof/Laws/Decode.lean ====
section
/-! SUPPORT. The laws of fields, of the opcode map and of the TEXT words, and how long an unfinished command is. -/
namespace Sys2Proof

theorem field_toNat (w : Word) (lo n : Nat) : (field w lo n).toNat = w.toNat / 2 ^ lo % 2 ^ n := by
  simp [field, BitVec.extractLsb'_toNat, Nat.shiftRight_eq_div_pow]

/-- A concatenation as a number: the first part high (R9). -/
theorem toNat_concat {m n : Nat} (a : BitVec m) (b : BitVec n) : (a ++ b).toNat = a.toNat * 2 ^ n + b.toNat := by
  rw [BitVec.toNat_append, ← Nat.shiftLeft_add_eq_or_of_lt b.isLt, Nat.shiftLeft_eq]

/-- A word has no 1 in a run of `n` bits from bit `lo` up exactly when its field there is 0. -/
theorem and_mask_eq_zero_iff (w : Word) (lo n : Nat) (hn : lo + n ≤ 32) :
    w &&& (BitVec.ofNat 32 (2 ^ n - 1) <<< lo) = 0 ↔ field w lo n = 0 := by
  constructor
  · intro h
    apply BitVec.eq_of_getLsbD_eq
    intro k hk
    have := congrArg (fun v : Word => v.getLsbD (lo + k)) h
    simp only [BitVec.getLsbD_and, BitVec.getLsbD_shiftLeft, BitVec.getLsbD_ofNat, Nat.testBit_two_pow_sub_one] at this
    simp only [field, BitVec.getLsbD_extractLsb']
    simpa [hk, show lo + k < 32 by omega, show k < 32 by omega] using this
  · intro h
    apply BitVec.eq_of_getLsbD_eq
    intro k hk
    simp only [BitVec.getLsbD_and, BitVec.getLsbD_shiftLeft, BitVec.getLsbD_ofNat, Nat.testBit_two_pow_sub_one]
    by_cases hlo : lo ≤ k ∧ k - lo < n
    · have := congrArg (fun v : BitVec n => v.getLsbD (k - lo)) h
      simp only [field, BitVec.getLsbD_extractLsb'] at this
      have e : lo + (k - lo) = k := by omega
      simp_all
    · by_cases h1 : k < lo
      · simp [h1]
      · have h2 : ¬ k - lo < n := by omega
        simp [h2]

/-- The reserved bits of each command's word 0 are one run of bits (R58 to R67): where it starts. -/
def Opcode.reservedLo : Opcode → Nat
  | .nop => 0
  | .tonePlay => 16
  | .toneStop => 0
  | .fbClear => 0
  | .fbSetPixel => 1
  | .fbDrawGlyph => 8
  | .fbDrawString => 0
  | .fbFlush => 0
  | .fbCenter => 0
  | .fbPeek => 9
  | .dbSample => 2
  | .dbSetThresh => 17

/-- The reserved bits of each command's word 0 are one run of bits (R58 to R67): how many there are. -/
def Opcode.reservedWidth : Opcode → Nat
  | .nop => 24
  | .tonePlay => 8
  | .toneStop => 24
  | .fbClear => 24
  | .fbSetPixel => 23
  | .fbDrawGlyph => 8
  | .fbDrawString => 0
  | .fbFlush => 24
  | .fbCenter => 24
  | .fbPeek => 15
  | .dbSample => 22
  | .dbSetThresh => 7

/-- The reserved bits are all 0 exactly when that run, as a number, is 0 (R71). -/
theorem reserved_zero_iff (o : Opcode) (w : Word) :
    w &&& o.reservedMask = 0 ↔ w.toNat / 2 ^ o.reservedLo % 2 ^ o.reservedWidth = 0 := by
  have key : w &&& o.reservedMask = 0 ↔ field w o.reservedLo o.reservedWidth = 0 := by
    have hm : o.reservedMask = BitVec.ofNat 32 (2 ^ o.reservedWidth - 1) <<< o.reservedLo := by cases o <;> rfl
    rw [hm]
    exact and_mask_eq_zero_iff w _ _ (by cases o <;> decide)
  rw [key, ← field_toNat]
  exact ⟨fun h => by rw [h]; rfl, fun h => BitVec.eq_of_toNat_eq h⟩

/-- Word 0 passes its checks exactly when its opcode byte is the command's and its reserved bits are 0 (R70, R71). -/
theorem checkWord0_ok_iff (w : Word) (o : Opcode) :
    checkWord0 w = .ok o ↔
      Opcode.ofByte (opcodeByte w) = some o ∧ w.toNat / 2 ^ o.reservedLo % 2 ^ o.reservedWidth = 0 := by
  simp only [checkWord0]
  cases h : Opcode.ofByte (opcodeByte w) with
  | none => simp
  | some p =>
    by_cases hz : w &&& p.reservedMask = 0
    · simp only [hz, if_true, Except.ok.injEq, Option.some.injEq]
      constructor
      · rintro rfl
        exact ⟨rfl, (reserved_zero_iff _ _).1 hz⟩
      · exact fun h => h.1
    · simp only [hz, if_false, Option.some.injEq, reduceCtorEq, false_iff]
      rintro ⟨rfl, h⟩
      exact hz ((reserved_zero_iff _ _).2 h)

theorem opcodeByte_toNat (w : Word) : (opcodeByte w).toNat = w.toNat / 2 ^ 24 := by
  have := w.isLt
  rw [opcodeByte, field_toNat]
  omega

theorem Opcode.ofByte_byte (o : Opcode) : Opcode.ofByte o.byte = some o := by cases o <;> rfl

theorem Opcode.byte_of_ofByte {b : Byte} {o : Opcode} (h : Opcode.ofByte b = some o) : o.byte = b := by
  apply BitVec.eq_of_toNat_eq
  unfold Opcode.ofByte at h
  split at h <;> first | (cases h; simp_all [Opcode.byte]) | cases h

/-- The opcode byte of each command as a number (R69). -/
def Opcode.code : Opcode → Nat
  | .nop => 0x00
  | .tonePlay => 0x10
  | .toneStop => 0x11
  | .fbClear => 0x20
  | .fbSetPixel => 0x21
  | .fbDrawGlyph => 0x22
  | .fbDrawString => 0x23
  | .fbFlush => 0x24
  | .fbCenter => 0x25
  | .fbPeek => 0x26
  | .dbSample => 0x30
  | .dbSetThresh => 0x31

theorem Opcode.byte_toNat (o : Opcode) : o.byte.toNat = o.code := by cases o <;> rfl

/-- The opcode map, read from a word's number (R69). -/
theorem ofByte_opcodeByte_iff (w : Word) (o : Opcode) :
    Opcode.ofByte (opcodeByte w) = some o ↔ w.toNat / 2 ^ 24 = o.code := by
  constructor
  · intro h
    rw [← opcodeByte_toNat, ← Opcode.byte_of_ofByte h, Opcode.byte_toNat]
  · intro h
    have hb : opcodeByte w = o.byte := BitVec.eq_of_toNat_eq (by rw [opcodeByte_toNat, h, Opcode.byte_toNat])
    rw [hb, Opcode.ofByte_byte]

/-- A word 0 that passes its checks is decoded by its opcode's format. -/
theorem decode_cons {o : Opcode} {w : Word} (ext : List Word) (h1 : w.toNat / 2 ^ 24 = o.code)
    (h2 : w.toNat / 2 ^ o.reservedLo % 2 ^ o.reservedWidth = 0) : decode (w :: ext) = decodeFields o w ext := by
  have h := (checkWord0_ok_iff w o).2 ⟨(ofByte_opcodeByte_iff w o).2 h1, h2⟩
  simp [decode, h]

/-- Words that decode to a command start with a word 0 that passes the checks of one opcode, whose format reads it. -/
theorem decode_cons_ok {w : Word} {ext : List Word} {r : Instr × List Word} (h : decode (w :: ext) = .ok r) :
    ∃ o : Opcode, w.toNat / 2 ^ 24 = o.code ∧ w.toNat / 2 ^ o.reservedLo % 2 ^ o.reservedWidth = 0
      ∧ decodeFields o w ext = .ok r := by
  simp only [decode] at h
  split at h
  · cases h
  · rename_i o ho
    rw [checkWord0_ok_iff, ofByte_opcodeByte_iff] at ho
    exact ⟨o, ho.1, ho.2, h⟩

/-- A two-word command takes exactly one extension word. -/
theorem twoWords_ok {f : Word → Instr} {ext : List Word} {r : Instr × List Word} (h : twoWords f ext = .ok r) :
    ∃ w, ext = w :: r.2 ∧ r.1 = f w := by
  cases ext with
  | nil => cases h
  | cons w more =>
    cases h
    exact ⟨w, rfl, rfl⟩

theorem length_unpackText (l : List Word) : (unpackText l).length = 4 * l.length := by
  induction l with
  | nil => rfl
  | cons w l ih =>
    simp only [unpackText, textBytes, List.length_append, List.length_cons, List.length_nil, ih]
    omega

/-- An extension word is its two halves. -/
theorem halves_field (w : Word) : halves (field w 16 16) (field w 0 16) = w := by
  apply BitVec.eq_of_toNat_eq
  rw [halves, toNat_concat, field_toNat, field_toNat]
  have := w.isLt
  omega

theorem length_packText (t : List Byte) : (packText t).length = textWordCount t.length := by
  induction t using packText.induct with
  | case1 => rfl
  | case2 a => simp [packText, textWordCount]
  | case3 a b => simp [packText, textWordCount]
  | case4 a b c => simp [packText, textWordCount]
  | case5 a b c d rest ih =>
    simp only [packText, List.length_cons, ih, textWordCount]
    omega

/-- The four characters of a TEXT word (R47). -/
theorem textBytes_concat (d c b a : Byte) : textBytes (d ++ c ++ b ++ a : BitVec 32) = [a, b, c, d] := by
  have ha := a.isLt
  have hb := b.isLt
  have hc := c.isLt
  have hd := d.isLt
  have h : (d ++ c ++ b ++ a : BitVec 32).toNat
      = ((d.toNat * 2 ^ 8 + c.toNat) * 2 ^ 8 + b.toNat) * 2 ^ 8 + a.toNat := by
    rw [toNat_concat, toNat_concat, toNat_concat]
  simp only [textBytes, List.cons.injEq, and_true]
  refine ⟨?_, ?_, ?_, ?_⟩ <;> apply BitVec.eq_of_toNat_eq <;> rw [field_toNat, h] <;> omega

/-- Unpacking the packed TEXT words gives the string back, whatever stands past its end. -/
theorem unpack_packText (t : List Byte) : (unpackText (packText t)).take t.length = t := by
  induction t using packText.induct with
  | case1 => rfl
  | case2 a => simp only [packText, unpackText, textBytes_concat]; rfl
  | case3 a b => simp only [packText, unpackText, textBytes_concat]; rfl
  | case4 a b c => simp only [packText, unpackText, textBytes_concat]; rfl
  | case5 a b c d rest ih => simp [packText, unpackText, textBytes_concat, ih]

theorem textWordCount_le (w0 : Word) : textWordCount (field w0 0 8).toNat ≤ 64 := by
  have h := (field w0 0 8).isLt
  simp only [textWordCount]
  omega

theorem twoWords_incomplete {f : Word → Instr} {ext : List Word} (h : twoWords f ext = .error .incomplete) :
    ext = [] := by
  cases ext with
  | nil => rfl
  | cons w more => simp [twoWords] at h

theorem stringWords_incomplete {w0 : Word} {ext : List Word} (h : stringWords w0 ext = .error .incomplete) :
    ext.length < 1 + textWordCount (field w0 0 8).toNat := by
  cases ext with
  | nil => simp
  | cons xy more =>
    by_cases hlt : more.length < textWordCount (field w0 0 8).toNat
    · simp only [List.length_cons]
      omega
    · simp [stringWords, hlt] at h

/-- A command is incomplete only when fewer extension words are there than its word 0 asks for (R56, R68). -/
theorem decodeFields_incomplete {o : Opcode} {w0 : Word} {ext : List Word}
    (h : decodeFields o w0 ext = .error .incomplete) : ext.length < o.extWords w0 := by
  cases o <;> simp only [decodeFields, oneWord, reduceCtorEq] at h
  all_goals first
    | (rw [twoWords_incomplete h]; exact Nat.one_pos)
    | exact stringWords_incomplete h

theorem extWords_le (o : Opcode) (w0 : Word) : o.extWords w0 ≤ 65 := by
  have hw := textWordCount_le w0
  cases o <;> simp only [Opcode.extWords] <;> omega

/-- An unfinished command is shorter than the longest command of 66 words (R36). -/
theorem decode_incomplete_length {ws : List Word} (h : decode ws = .error .incomplete) : ws.length ≤ 65 := by
  cases ws with
  | nil => simp
  | cons w0 ext =>
    simp only [decode] at h
    split at h
    · rename_i r hr
      simp only [checkWord0] at hr
      split at hr
      · simp_all
      · split at hr <;> simp_all
    · rename_i o _
      have := decodeFields_incomplete h
      have := extWords_le o w0
      simp only [List.length_cons]
      omega

end Sys2Proof
end

