-- ==== Sys2Proof/Laws/State.lean ====
section
/-! SUPPORT. What each shared update of the state does to each field, one lemma a field, so that no proof unfolds an
update. -/
namespace Sys2Proof.Machine

@[simp] theorem emit_toneRun (c : Call) (s : State) : (emit c s).toneRun = s.toneRun := rfl
@[simp] theorem emit_toneTop (c : Call) (s : State) : (emit c s).toneTop = s.toneTop := rfl
@[simp] theorem emit_toneHigh (c : Call) (s : State) : (emit c s).toneHigh = s.toneHigh := rfl
@[simp] theorem emit_toneCnt (c : Call) (s : State) : (emit c s).toneCnt = s.toneCnt := rfl
@[simp] theorem emit_fb (c : Call) (s : State) : (emit c s).fb = s.fb := rfl
@[simp] theorem emit_fbRdata (c : Call) (s : State) : (emit c s).fbRdata = s.fbRdata := rfl
@[simp] theorem emit_fbCenterX (c : Call) (s : State) : (emit c s).fbCenterX = s.fbCenterX := rfl
@[simp] theorem emit_fbCenterY (c : Call) (s : State) : (emit c s).fbCenterY = s.fbCenterY := rfl
@[simp] theorem emit_btnA (c : Call) (s : State) : (emit c s).btnA = s.btnA := rfl
@[simp] theorem emit_btnB (c : Call) (s : State) : (emit c s).btnB = s.btnB := rfl
@[simp] theorem emit_faulted (c : Call) (s : State) : (emit c s).faulted = s.faulted := rfl
@[simp] theorem emit_faultCause (c : Call) (s : State) : (emit c s).faultCause = s.faultCause := rfl
@[simp] theorem emit_faultWord (c : Call) (s : State) : (emit c s).faultWord = s.faultWord := rfl
@[simp] theorem emit_cmdBuf (c : Call) (s : State) : (emit c s).cmdBuf = s.cmdBuf := rfl
@[simp] theorem emit_flush (c : Call) (s : State) : (emit c s).flush = s.flush := rfl
@[simp] theorem emit_port (c : Call) (s : State) : (emit c s).port = s.port := rfl
@[simp] theorem emit_env (c : Call) (s : State) : (emit c s).env = s.env := rfl
@[simp] theorem emit_acks (c : Call) (s : State) : (emit c s).acks = s.acks := rfl
@[simp] theorem emit_calls (c : Call) (s : State) : (emit c s).calls = c :: s.calls := rfl
@[simp] theorem emit_readData (c : Call) (s : State) : (emit c s).readData = s.readData := rfl
@[simp] theorem emit_draws (c : Call) (s : State) : (emit c s).draws = s.draws := rfl

@[simp] theorem raiseFault_toneRun (c : Cause) (w : Word) (s : State) : (raiseFault c w s).toneRun = s.toneRun := rfl
@[simp] theorem raiseFault_toneTop (c : Cause) (w : Word) (s : State) : (raiseFault c w s).toneTop = s.toneTop := rfl
@[simp] theorem raiseFault_toneHigh (c : Cause) (w : Word) (s : State) : (raiseFault c w s).toneHigh = s.toneHigh := rfl
@[simp] theorem raiseFault_toneCnt (c : Cause) (w : Word) (s : State) : (raiseFault c w s).toneCnt = s.toneCnt := rfl
@[simp] theorem raiseFault_fb (c : Cause) (w : Word) (s : State) : (raiseFault c w s).fb = s.fb := rfl
@[simp] theorem raiseFault_fbRdata (c : Cause) (w : Word) (s : State) : (raiseFault c w s).fbRdata = s.fbRdata := rfl
@[simp] theorem raiseFault_fbCenterX (c : Cause) (w : Word) (s : State) : (raiseFault c w s).fbCenterX = s.fbCenterX := rfl
@[simp] theorem raiseFault_fbCenterY (c : Cause) (w : Word) (s : State) : (raiseFault c w s).fbCenterY = s.fbCenterY := rfl
@[simp] theorem raiseFault_btnA (c : Cause) (w : Word) (s : State) : (raiseFault c w s).btnA = s.btnA := rfl
@[simp] theorem raiseFault_btnB (c : Cause) (w : Word) (s : State) : (raiseFault c w s).btnB = s.btnB := rfl
@[simp] theorem raiseFault_faulted (c : Cause) (w : Word) (s : State) : (raiseFault c w s).faulted = true := rfl
@[simp] theorem raiseFault_faultCause (c : Cause) (w : Word) (s : State) : (raiseFault c w s).faultCause = causeCode c := rfl
@[simp] theorem raiseFault_faultWord (c : Cause) (w : Word) (s : State) : (raiseFault c w s).faultWord = w := rfl
@[simp] theorem raiseFault_cmdBuf (c : Cause) (w : Word) (s : State) : (raiseFault c w s).cmdBuf = [] := rfl
@[simp] theorem raiseFault_flush (c : Cause) (w : Word) (s : State) : (raiseFault c w s).flush = s.flush := rfl
@[simp] theorem raiseFault_port (c : Cause) (w : Word) (s : State) : (raiseFault c w s).port = s.port := rfl
@[simp] theorem raiseFault_env (c : Cause) (w : Word) (s : State) : (raiseFault c w s).env = s.env := rfl
@[simp] theorem raiseFault_acks (c : Cause) (w : Word) (s : State) : (raiseFault c w s).acks = s.acks := rfl
@[simp] theorem raiseFault_calls (c : Cause) (w : Word) (s : State) : (raiseFault c w s).calls = s.calls := rfl
@[simp] theorem raiseFault_readData (c : Cause) (w : Word) (s : State) : (raiseFault c w s).readData = s.readData := rfl
@[simp] theorem raiseFault_draws (c : Cause) (w : Word) (s : State) : (raiseFault c w s).draws = s.draws := rfl

@[simp] theorem resetBlock_toneRun (s : State) : (resetBlock s).toneRun = State.reset.toneRun := rfl
@[simp] theorem resetBlock_toneTop (s : State) : (resetBlock s).toneTop = State.reset.toneTop := rfl
@[simp] theorem resetBlock_toneHigh (s : State) : (resetBlock s).toneHigh = State.reset.toneHigh := rfl
@[simp] theorem resetBlock_toneCnt (s : State) : (resetBlock s).toneCnt = State.reset.toneCnt := rfl
@[simp] theorem resetBlock_fb (s : State) : (resetBlock s).fb = State.reset.fb := rfl
@[simp] theorem resetBlock_fbRdata (s : State) : (resetBlock s).fbRdata = State.reset.fbRdata := rfl
@[simp] theorem resetBlock_fbCenterX (s : State) : (resetBlock s).fbCenterX = State.reset.fbCenterX := rfl
@[simp] theorem resetBlock_fbCenterY (s : State) : (resetBlock s).fbCenterY = State.reset.fbCenterY := rfl
@[simp] theorem resetBlock_btnA (s : State) : (resetBlock s).btnA = State.reset.btnA := rfl
@[simp] theorem resetBlock_btnB (s : State) : (resetBlock s).btnB = State.reset.btnB := rfl
@[simp] theorem resetBlock_faulted (s : State) : (resetBlock s).faulted = State.reset.faulted := rfl
@[simp] theorem resetBlock_faultCause (s : State) : (resetBlock s).faultCause = State.reset.faultCause := rfl
@[simp] theorem resetBlock_faultWord (s : State) : (resetBlock s).faultWord = State.reset.faultWord := rfl
@[simp] theorem resetBlock_cmdBuf (s : State) : (resetBlock s).cmdBuf = State.reset.cmdBuf := rfl
@[simp] theorem resetBlock_flush (s : State) : (resetBlock s).flush = State.reset.flush := rfl
@[simp] theorem resetBlock_port (s : State) : (resetBlock s).port = State.reset.port := rfl
@[simp] theorem resetBlock_env (s : State) : (resetBlock s).env = s.env := rfl
@[simp] theorem resetBlock_acks (s : State) : (resetBlock s).acks = s.acks := rfl
@[simp] theorem resetBlock_calls (s : State) : (resetBlock s).calls = s.calls := rfl
@[simp] theorem resetBlock_readData (s : State) : (resetBlock s).readData = s.readData := rfl
@[simp] theorem resetBlock_draws (s : State) : (resetBlock s).draws = s.draws := rfl

@[simp] theorem toneStopCall_toneRun (s : State) : (toneStopCall s).toneRun = false := rfl
@[simp] theorem toneStopCall_toneTop (s : State) : (toneStopCall s).toneTop = s.toneTop := rfl
@[simp] theorem toneStopCall_toneHigh (s : State) : (toneStopCall s).toneHigh = s.toneHigh := rfl
@[simp] theorem toneStopCall_toneCnt (s : State) : (toneStopCall s).toneCnt = s.toneCnt := rfl
@[simp] theorem toneStopCall_fb (s : State) : (toneStopCall s).fb = s.fb := rfl
@[simp] theorem toneStopCall_fbRdata (s : State) : (toneStopCall s).fbRdata = s.fbRdata := rfl
@[simp] theorem toneStopCall_fbCenterX (s : State) : (toneStopCall s).fbCenterX = s.fbCenterX := rfl
@[simp] theorem toneStopCall_fbCenterY (s : State) : (toneStopCall s).fbCenterY = s.fbCenterY := rfl
@[simp] theorem toneStopCall_btnA (s : State) : (toneStopCall s).btnA = s.btnA := rfl
@[simp] theorem toneStopCall_btnB (s : State) : (toneStopCall s).btnB = s.btnB := rfl
@[simp] theorem toneStopCall_faulted (s : State) : (toneStopCall s).faulted = s.faulted := rfl
@[simp] theorem toneStopCall_faultCause (s : State) : (toneStopCall s).faultCause = s.faultCause := rfl
@[simp] theorem toneStopCall_faultWord (s : State) : (toneStopCall s).faultWord = s.faultWord := rfl
@[simp] theorem toneStopCall_cmdBuf (s : State) : (toneStopCall s).cmdBuf = s.cmdBuf := rfl
@[simp] theorem toneStopCall_flush (s : State) : (toneStopCall s).flush = s.flush := rfl
@[simp] theorem toneStopCall_port (s : State) : (toneStopCall s).port = s.port := rfl
@[simp] theorem toneStopCall_env (s : State) : (toneStopCall s).env = s.env := rfl
@[simp] theorem toneStopCall_acks (s : State) : (toneStopCall s).acks = s.acks := rfl
@[simp] theorem toneStopCall_calls (s : State) : (toneStopCall s).calls = .tone .stop :: s.calls := rfl
@[simp] theorem toneStopCall_readData (s : State) : (toneStopCall s).readData = s.readData := rfl
@[simp] theorem toneStopCall_draws (s : State) : (toneStopCall s).draws = s.draws := rfl

@[simp] theorem toneSetTop_toneRun (n : Word) (s : State) : (toneSetTop n s).toneRun = s.toneRun := rfl
@[simp] theorem toneSetTop_toneTop (n : Word) (s : State) : (toneSetTop n s).toneTop = n := rfl
@[simp] theorem toneSetTop_toneHigh (n : Word) (s : State) : (toneSetTop n s).toneHigh = s.toneHigh := rfl
@[simp] theorem toneSetTop_toneCnt (n : Word) (s : State) : (toneSetTop n s).toneCnt = s.toneCnt := rfl
@[simp] theorem toneSetTop_fb (n : Word) (s : State) : (toneSetTop n s).fb = s.fb := rfl
@[simp] theorem toneSetTop_fbRdata (n : Word) (s : State) : (toneSetTop n s).fbRdata = s.fbRdata := rfl
@[simp] theorem toneSetTop_fbCenterX (n : Word) (s : State) : (toneSetTop n s).fbCenterX = s.fbCenterX := rfl
@[simp] theorem toneSetTop_fbCenterY (n : Word) (s : State) : (toneSetTop n s).fbCenterY = s.fbCenterY := rfl
@[simp] theorem toneSetTop_btnA (n : Word) (s : State) : (toneSetTop n s).btnA = s.btnA := rfl
@[simp] theorem toneSetTop_btnB (n : Word) (s : State) : (toneSetTop n s).btnB = s.btnB := rfl
@[simp] theorem toneSetTop_faulted (n : Word) (s : State) : (toneSetTop n s).faulted = s.faulted := rfl
@[simp] theorem toneSetTop_faultCause (n : Word) (s : State) : (toneSetTop n s).faultCause = s.faultCause := rfl
@[simp] theorem toneSetTop_faultWord (n : Word) (s : State) : (toneSetTop n s).faultWord = s.faultWord := rfl
@[simp] theorem toneSetTop_cmdBuf (n : Word) (s : State) : (toneSetTop n s).cmdBuf = s.cmdBuf := rfl
@[simp] theorem toneSetTop_flush (n : Word) (s : State) : (toneSetTop n s).flush = s.flush := rfl
@[simp] theorem toneSetTop_port (n : Word) (s : State) : (toneSetTop n s).port = s.port := rfl
@[simp] theorem toneSetTop_env (n : Word) (s : State) : (toneSetTop n s).env = s.env := rfl
@[simp] theorem toneSetTop_acks (n : Word) (s : State) : (toneSetTop n s).acks = s.acks := rfl
@[simp] theorem toneSetTop_calls (n : Word) (s : State) : (toneSetTop n s).calls = .tone (.setTop n) :: s.calls := rfl
@[simp] theorem toneSetTop_readData (n : Word) (s : State) : (toneSetTop n s).readData = s.readData := rfl
@[simp] theorem toneSetTop_draws (n : Word) (s : State) : (toneSetTop n s).draws = s.draws := rfl

@[simp] theorem toneSetDuty_toneRun (n : Word) (s : State) : (toneSetDuty n s).toneRun = s.toneRun := rfl
@[simp] theorem toneSetDuty_toneTop (n : Word) (s : State) : (toneSetDuty n s).toneTop = s.toneTop := rfl
@[simp] theorem toneSetDuty_toneHigh (n : Word) (s : State) : (toneSetDuty n s).toneHigh = n := rfl
@[simp] theorem toneSetDuty_toneCnt (n : Word) (s : State) : (toneSetDuty n s).toneCnt = s.toneCnt := rfl
@[simp] theorem toneSetDuty_fb (n : Word) (s : State) : (toneSetDuty n s).fb = s.fb := rfl
@[simp] theorem toneSetDuty_fbRdata (n : Word) (s : State) : (toneSetDuty n s).fbRdata = s.fbRdata := rfl
@[simp] theorem toneSetDuty_fbCenterX (n : Word) (s : State) : (toneSetDuty n s).fbCenterX = s.fbCenterX := rfl
@[simp] theorem toneSetDuty_fbCenterY (n : Word) (s : State) : (toneSetDuty n s).fbCenterY = s.fbCenterY := rfl
@[simp] theorem toneSetDuty_btnA (n : Word) (s : State) : (toneSetDuty n s).btnA = s.btnA := rfl
@[simp] theorem toneSetDuty_btnB (n : Word) (s : State) : (toneSetDuty n s).btnB = s.btnB := rfl
@[simp] theorem toneSetDuty_faulted (n : Word) (s : State) : (toneSetDuty n s).faulted = s.faulted := rfl
@[simp] theorem toneSetDuty_faultCause (n : Word) (s : State) : (toneSetDuty n s).faultCause = s.faultCause := rfl
@[simp] theorem toneSetDuty_faultWord (n : Word) (s : State) : (toneSetDuty n s).faultWord = s.faultWord := rfl
@[simp] theorem toneSetDuty_cmdBuf (n : Word) (s : State) : (toneSetDuty n s).cmdBuf = s.cmdBuf := rfl
@[simp] theorem toneSetDuty_flush (n : Word) (s : State) : (toneSetDuty n s).flush = s.flush := rfl
@[simp] theorem toneSetDuty_port (n : Word) (s : State) : (toneSetDuty n s).port = s.port := rfl
@[simp] theorem toneSetDuty_env (n : Word) (s : State) : (toneSetDuty n s).env = s.env := rfl
@[simp] theorem toneSetDuty_acks (n : Word) (s : State) : (toneSetDuty n s).acks = s.acks := rfl
@[simp] theorem toneSetDuty_calls (n : Word) (s : State) : (toneSetDuty n s).calls = .tone (.setDuty n) :: s.calls := rfl
@[simp] theorem toneSetDuty_readData (n : Word) (s : State) : (toneSetDuty n s).readData = s.readData := rfl
@[simp] theorem toneSetDuty_draws (n : Word) (s : State) : (toneSetDuty n s).draws = s.draws := rfl

@[simp] theorem toneStart_toneRun (s : State) : (toneStart s).toneRun = true := rfl
@[simp] theorem toneStart_toneTop (s : State) : (toneStart s).toneTop = s.toneTop := rfl
@[simp] theorem toneStart_toneHigh (s : State) : (toneStart s).toneHigh = s.toneHigh := rfl
@[simp] theorem toneStart_toneCnt (s : State) : (toneStart s).toneCnt = 0 := rfl
@[simp] theorem toneStart_fb (s : State) : (toneStart s).fb = s.fb := rfl
@[simp] theorem toneStart_fbRdata (s : State) : (toneStart s).fbRdata = s.fbRdata := rfl
@[simp] theorem toneStart_fbCenterX (s : State) : (toneStart s).fbCenterX = s.fbCenterX := rfl
@[simp] theorem toneStart_fbCenterY (s : State) : (toneStart s).fbCenterY = s.fbCenterY := rfl
@[simp] theorem toneStart_btnA (s : State) : (toneStart s).btnA = s.btnA := rfl
@[simp] theorem toneStart_btnB (s : State) : (toneStart s).btnB = s.btnB := rfl
@[simp] theorem toneStart_faulted (s : State) : (toneStart s).faulted = s.faulted := rfl
@[simp] theorem toneStart_faultCause (s : State) : (toneStart s).faultCause = s.faultCause := rfl
@[simp] theorem toneStart_faultWord (s : State) : (toneStart s).faultWord = s.faultWord := rfl
@[simp] theorem toneStart_cmdBuf (s : State) : (toneStart s).cmdBuf = s.cmdBuf := rfl
@[simp] theorem toneStart_flush (s : State) : (toneStart s).flush = s.flush := rfl
@[simp] theorem toneStart_port (s : State) : (toneStart s).port = s.port := rfl
@[simp] theorem toneStart_env (s : State) : (toneStart s).env = s.env := rfl
@[simp] theorem toneStart_acks (s : State) : (toneStart s).acks = s.acks := rfl
@[simp] theorem toneStart_calls (s : State) : (toneStart s).calls = .tone .start :: s.calls := rfl
@[simp] theorem toneStart_readData (s : State) : (toneStart s).readData = s.readData := rfl
@[simp] theorem toneStart_draws (s : State) : (toneStart s).draws = s.draws := rfl

@[simp] theorem cycles_toneRun (n : Nat) (s : State) : (cycles n s).toneRun = s.toneRun := rfl
@[simp] theorem cycles_toneTop (n : Nat) (s : State) : (cycles n s).toneTop = s.toneTop := rfl
@[simp] theorem cycles_toneHigh (n : Nat) (s : State) : (cycles n s).toneHigh = s.toneHigh := rfl
@[simp] theorem cycles_toneCnt (n : Nat) (s : State) : (cycles n s).toneCnt = if s.toneRun then tickCntN s.toneTop n s.toneCnt else s.toneCnt := rfl
@[simp] theorem cycles_fb (n : Nat) (s : State) : (cycles n s).fb = s.fb := rfl
@[simp] theorem cycles_fbRdata (n : Nat) (s : State) : (cycles n s).fbRdata = s.fbRdata := rfl
@[simp] theorem cycles_fbCenterX (n : Nat) (s : State) : (cycles n s).fbCenterX = s.fbCenterX := rfl
@[simp] theorem cycles_fbCenterY (n : Nat) (s : State) : (cycles n s).fbCenterY = s.fbCenterY := rfl
@[simp] theorem cycles_btnA (n : Nat) (s : State) : (cycles n s).btnA = s.btnA := rfl
@[simp] theorem cycles_btnB (n : Nat) (s : State) : (cycles n s).btnB = s.btnB := rfl
@[simp] theorem cycles_faulted (n : Nat) (s : State) : (cycles n s).faulted = s.faulted := rfl
@[simp] theorem cycles_faultCause (n : Nat) (s : State) : (cycles n s).faultCause = s.faultCause := rfl
@[simp] theorem cycles_faultWord (n : Nat) (s : State) : (cycles n s).faultWord = s.faultWord := rfl
@[simp] theorem cycles_cmdBuf (n : Nat) (s : State) : (cycles n s).cmdBuf = s.cmdBuf := rfl
@[simp] theorem cycles_flush (n : Nat) (s : State) : (cycles n s).flush = s.flush := rfl
@[simp] theorem cycles_port (n : Nat) (s : State) : (cycles n s).port = s.port := rfl
@[simp] theorem cycles_env (n : Nat) (s : State) : (cycles n s).env = s.env := rfl
@[simp] theorem cycles_acks (n : Nat) (s : State) : (cycles n s).acks = s.acks := rfl
@[simp] theorem cycles_calls (n : Nat) (s : State) : (cycles n s).calls = s.calls := rfl
@[simp] theorem cycles_readData (n : Nat) (s : State) : (cycles n s).readData = s.readData := rfl
@[simp] theorem cycles_draws (n : Nat) (s : State) : (cycles n s).draws = s.draws := rfl

@[simp] theorem elapse_toneRun (s : State) : (elapse s).toneRun = s.toneRun := rfl
@[simp] theorem elapse_toneTop (s : State) : (elapse s).toneTop = s.toneTop := rfl
@[simp] theorem elapse_toneHigh (s : State) : (elapse s).toneHigh = s.toneHigh := rfl
@[simp] theorem elapse_toneCnt (s : State) : (elapse s).toneCnt = (cycles (Config.driveCycles s.draws) s).toneCnt := rfl
@[simp] theorem elapse_fb (s : State) : (elapse s).fb = s.fb := rfl
@[simp] theorem elapse_fbRdata (s : State) : (elapse s).fbRdata = s.fbRdata := rfl
@[simp] theorem elapse_fbCenterX (s : State) : (elapse s).fbCenterX = s.fbCenterX := rfl
@[simp] theorem elapse_fbCenterY (s : State) : (elapse s).fbCenterY = s.fbCenterY := rfl
@[simp] theorem elapse_btnA (s : State) : (elapse s).btnA = s.btnA := rfl
@[simp] theorem elapse_btnB (s : State) : (elapse s).btnB = s.btnB := rfl
@[simp] theorem elapse_faulted (s : State) : (elapse s).faulted = s.faulted := rfl
@[simp] theorem elapse_faultCause (s : State) : (elapse s).faultCause = s.faultCause := rfl
@[simp] theorem elapse_faultWord (s : State) : (elapse s).faultWord = s.faultWord := rfl
@[simp] theorem elapse_cmdBuf (s : State) : (elapse s).cmdBuf = s.cmdBuf := rfl
@[simp] theorem elapse_flush (s : State) : (elapse s).flush = s.flush := rfl
@[simp] theorem elapse_port (s : State) : (elapse s).port = s.port := rfl
@[simp] theorem elapse_env (s : State) : (elapse s).env = s.env := rfl
@[simp] theorem elapse_acks (s : State) : (elapse s).acks = s.acks := rfl
@[simp] theorem elapse_calls (s : State) : (elapse s).calls = s.calls := rfl
@[simp] theorem elapse_readData (s : State) : (elapse s).readData = s.readData := rfl
@[simp] theorem elapse_draws (s : State) : (elapse s).draws = s.draws + 1 := rfl

@[simp] theorem discardWord_toneRun (s : State) : (discardWord s).toneRun = s.toneRun := rfl
@[simp] theorem discardWord_toneTop (s : State) : (discardWord s).toneTop = s.toneTop := rfl
@[simp] theorem discardWord_toneHigh (s : State) : (discardWord s).toneHigh = s.toneHigh := rfl
@[simp] theorem discardWord_toneCnt (s : State) : (discardWord s).toneCnt = s.toneCnt := rfl
@[simp] theorem discardWord_fb (s : State) : (discardWord s).fb = s.fb := rfl
@[simp] theorem discardWord_fbRdata (s : State) : (discardWord s).fbRdata = s.fbRdata := rfl
@[simp] theorem discardWord_fbCenterX (s : State) : (discardWord s).fbCenterX = s.fbCenterX := rfl
@[simp] theorem discardWord_fbCenterY (s : State) : (discardWord s).fbCenterY = s.fbCenterY := rfl
@[simp] theorem discardWord_btnA (s : State) : (discardWord s).btnA = s.btnA := rfl
@[simp] theorem discardWord_btnB (s : State) : (discardWord s).btnB = s.btnB := rfl
@[simp] theorem discardWord_faulted (s : State) : (discardWord s).faulted = s.faulted := rfl
@[simp] theorem discardWord_faultCause (s : State) : (discardWord s).faultCause = s.faultCause := rfl
@[simp] theorem discardWord_faultWord (s : State) : (discardWord s).faultWord = s.faultWord := rfl
@[simp] theorem discardWord_cmdBuf (s : State) : (discardWord s).cmdBuf = s.cmdBuf := rfl
@[simp] theorem discardWord_flush (s : State) : (discardWord s).flush = s.flush := rfl
@[simp] theorem discardWord_port (s : State) : (discardWord s).port = s.port.tail := rfl
@[simp] theorem discardWord_env (s : State) : (discardWord s).env = s.env := rfl
@[simp] theorem discardWord_acks (s : State) : (discardWord s).acks = s.acks := rfl
@[simp] theorem discardWord_calls (s : State) : (discardWord s).calls = s.calls := rfl
@[simp] theorem discardWord_readData (s : State) : (discardWord s).readData = s.readData := rfl
@[simp] theorem discardWord_draws (s : State) : (discardWord s).draws = s.draws := rfl

@[simp] theorem faultWord0_toneRun (c : Cause) (s : State) : (faultWord0 c s).toneRun = s.toneRun := rfl
@[simp] theorem faultWord0_toneTop (c : Cause) (s : State) : (faultWord0 c s).toneTop = s.toneTop := rfl
@[simp] theorem faultWord0_toneHigh (c : Cause) (s : State) : (faultWord0 c s).toneHigh = s.toneHigh := rfl
@[simp] theorem faultWord0_toneCnt (c : Cause) (s : State) : (faultWord0 c s).toneCnt = s.toneCnt := rfl
@[simp] theorem faultWord0_fb (c : Cause) (s : State) : (faultWord0 c s).fb = s.fb := rfl
@[simp] theorem faultWord0_fbRdata (c : Cause) (s : State) : (faultWord0 c s).fbRdata = s.fbRdata := rfl
@[simp] theorem faultWord0_fbCenterX (c : Cause) (s : State) : (faultWord0 c s).fbCenterX = s.fbCenterX := rfl
@[simp] theorem faultWord0_fbCenterY (c : Cause) (s : State) : (faultWord0 c s).fbCenterY = s.fbCenterY := rfl
@[simp] theorem faultWord0_btnA (c : Cause) (s : State) : (faultWord0 c s).btnA = s.btnA := rfl
@[simp] theorem faultWord0_btnB (c : Cause) (s : State) : (faultWord0 c s).btnB = s.btnB := rfl
@[simp] theorem faultWord0_faulted (c : Cause) (s : State) : (faultWord0 c s).faulted = true := rfl
@[simp] theorem faultWord0_faultCause (c : Cause) (s : State) : (faultWord0 c s).faultCause = causeCode c := rfl
@[simp] theorem faultWord0_faultWord (c : Cause) (s : State) : (faultWord0 c s).faultWord = (pendingWords s).headD 0 := rfl
@[simp] theorem faultWord0_cmdBuf (c : Cause) (s : State) : (faultWord0 c s).cmdBuf = [] := rfl
@[simp] theorem faultWord0_flush (c : Cause) (s : State) : (faultWord0 c s).flush = s.flush := rfl
@[simp] theorem faultWord0_port (c : Cause) (s : State) : (faultWord0 c s).port = (pendingWords s).tail := rfl
@[simp] theorem faultWord0_env (c : Cause) (s : State) : (faultWord0 c s).env = s.env := rfl
@[simp] theorem faultWord0_acks (c : Cause) (s : State) : (faultWord0 c s).acks = s.acks := rfl
@[simp] theorem faultWord0_calls (c : Cause) (s : State) : (faultWord0 c s).calls = s.calls := rfl
@[simp] theorem faultWord0_readData (c : Cause) (s : State) : (faultWord0 c s).readData = s.readData := rfl
@[simp] theorem faultWord0_draws (c : Cause) (s : State) : (faultWord0 c s).draws = s.draws := rfl

@[simp] theorem placeWords_toneRun (ws : List Word) (s : State) : (placeWords ws s).toneRun = s.toneRun := rfl
@[simp] theorem placeWords_toneTop (ws : List Word) (s : State) : (placeWords ws s).toneTop = s.toneTop := rfl
@[simp] theorem placeWords_toneHigh (ws : List Word) (s : State) : (placeWords ws s).toneHigh = s.toneHigh := rfl
@[simp] theorem placeWords_toneCnt (ws : List Word) (s : State) : (placeWords ws s).toneCnt = s.toneCnt := rfl
@[simp] theorem placeWords_fb (ws : List Word) (s : State) : (placeWords ws s).fb = s.fb := rfl
@[simp] theorem placeWords_fbRdata (ws : List Word) (s : State) : (placeWords ws s).fbRdata = s.fbRdata := rfl
@[simp] theorem placeWords_fbCenterX (ws : List Word) (s : State) : (placeWords ws s).fbCenterX = s.fbCenterX := rfl
@[simp] theorem placeWords_fbCenterY (ws : List Word) (s : State) : (placeWords ws s).fbCenterY = s.fbCenterY := rfl
@[simp] theorem placeWords_btnA (ws : List Word) (s : State) : (placeWords ws s).btnA = s.btnA := rfl
@[simp] theorem placeWords_btnB (ws : List Word) (s : State) : (placeWords ws s).btnB = s.btnB := rfl
@[simp] theorem placeWords_faulted (ws : List Word) (s : State) : (placeWords ws s).faulted = false := rfl
@[simp] theorem placeWords_faultCause (ws : List Word) (s : State) : (placeWords ws s).faultCause = 0 := rfl
@[simp] theorem placeWords_faultWord (ws : List Word) (s : State) : (placeWords ws s).faultWord = 0 := rfl
@[simp] theorem placeWords_cmdBuf (ws : List Word) (s : State) : (placeWords ws s).cmdBuf = [] := rfl
@[simp] theorem placeWords_flush (ws : List Word) (s : State) : (placeWords ws s).flush = none := rfl
@[simp] theorem placeWords_port (ws : List Word) (s : State) : (placeWords ws s).port = ws := rfl
@[simp] theorem placeWords_env (ws : List Word) (s : State) : (placeWords ws s).env = [] := rfl
@[simp] theorem placeWords_acks (ws : List Word) (s : State) : (placeWords ws s).acks = s.acks := rfl
@[simp] theorem placeWords_calls (ws : List Word) (s : State) : (placeWords ws s).calls = s.calls := rfl
@[simp] theorem placeWords_readData (ws : List Word) (s : State) : (placeWords ws s).readData = s.readData := rfl
@[simp] theorem placeWords_draws (ws : List Word) (s : State) : (placeWords ws s).draws = s.draws := rfl

end Sys2Proof.Machine
end

