-- ==== Sys2Proof/Laws/Display.lean ====
section
/-! SUPPORT. What a flush does: how far it gets, which calls it makes, and that it changes nothing else. -/
namespace Sys2Proof.Machine

/-- Everything a flush, whole or in part, can change: the calls made, the completions used up, and the wait. -/
theorem issueCalls_frame (cs : List DispCall) (k : Nat) (s : State) :
    ∃ c a f, issueCalls cs k s = { s with calls := c, acks := a, flush := f } := by
  induction cs generalizing k s with
  | nil => exact ⟨s.calls, s.acks, none, rfl⟩
  | cons c cs ih =>
    rw [issueCalls]
    split
    · obtain ⟨c', a, f, h⟩ := ih (k + 1) (emit (.disp c) s)
      exact ⟨c', a, f, by rw [h]; rfl⟩
    · exact ⟨.disp c :: s.calls, s.acks, some k, rfl⟩
    · rename_i n _
      obtain ⟨c', a, f, h⟩ := ih (k + 1) { emit (.disp c) s with acks := some n }
      exact ⟨c', a, f, by rw [h]; rfl⟩

/-- With a transport that completes every call, all of them are made, in order. -/
theorem issueCalls_prompt (cs : List DispCall) (k : Nat) (s : State) (h : s.acks = none) :
    issueCalls cs k s = { s with calls := (cs.map Call.disp).reverse ++ s.calls, flush := none } := by
  induction cs generalizing k s with
  | nil => rfl
  | cons c cs ih =>
    rw [issueCalls]
    simp only [h]
    rw [ih (k + 1) (emit (.disp c) s) h]
    simp [emit, h]

/-- With enough completions left for every call, all of them are made, in order, and one completion each is used. -/
theorem issueCalls_enough (cs : List DispCall) (k n : Nat) (s : State) (h : s.acks = some n) (hn : cs.length ≤ n) :
    issueCalls cs k s
      = { s with calls := (cs.map Call.disp).reverse ++ s.calls, flush := none, acks := some (n - cs.length) } := by
  induction cs generalizing k n s with
  | nil => simp [issueCalls, ← h]
  | cons c cs ih =>
    rw [issueCalls]
    obtain ⟨m, rfl⟩ : ∃ m, n = m + 1 := ⟨n - 1, by simp at hn; omega⟩
    simp only [h]
    rw [ih (k + 1) m _ rfl (by simpa using hn)]
    simp [emit]

/-- With completions for only the first `n` calls, the block makes those and the next one, and waits for it. -/
theorem issueCalls_stall (cs : List DispCall) (k n : Nat) (s : State) (h : s.acks = some n) (hn : n < cs.length) :
    issueCalls cs k s
      = { s with calls := ((cs.take (n + 1)).map Call.disp).reverse ++ s.calls, flush := some (k + n),
                 acks := some 0 } := by
  induction cs generalizing k n s with
  | nil => simp at hn
  | cons c cs ih =>
    rw [issueCalls]
    cases n with
    | zero => simp [h, emit]
    | succ m =>
      simp only [h]
      rw [ih (k + 1) m _ rfl (by simpa using hn)]
      simp [emit, show k + 1 + m = k + (m + 1) by omega]

/-- The calls a flush makes are calls it was given, and the wait is for one of them. -/
theorem issueCalls_calls (cs : List DispCall) (k : Nat) (s : State) :
    ∃ n, (issueCalls cs k s).calls = ((cs.take n).map Call.disp).reverse ++ s.calls := by
  cases h : s.acks with
  | none => exact ⟨cs.length, by rw [issueCalls_prompt _ _ _ h]; simp⟩
  | some n =>
    by_cases hn : cs.length ≤ n
    · exact ⟨cs.length, by rw [issueCalls_enough _ _ _ _ h hn]; simp⟩
    · exact ⟨n + 1, by rw [issueCalls_stall _ _ _ _ h (by omega)]⟩

theorem issueCalls_flush_lt (cs : List DispCall) (k : Nat) (s : State) {j : Nat}
    (hj : (issueCalls cs k s).flush = some j) : j < k + cs.length := by
  cases h : s.acks with
  | none => rw [issueCalls_prompt _ _ _ h] at hj; simp at hj
  | some n =>
    by_cases hn : cs.length ≤ n
    · rw [issueCalls_enough _ _ _ _ h hn] at hj; simp at hj
    · rw [issueCalls_stall _ _ _ _ h (by omega)] at hj
      simp at hj
      omega

theorem flushCalls_length (m : Memory) : (flushCalls m).length = 505 := by
  simp only [flushCalls, List.length_cons, List.length_map, List.length_range]
  rfl

/-- No call of a flush is `writeCommandByte` (R97). -/
theorem flushCalls_not_command (m : Memory) {c : DispCall} (h : c ∈ flushCalls m) (b : Byte) : c ≠ .command b := by
  rintro rfl
  simp [flushCalls] at h

/-- Everything a resumed flush can change. -/
theorem resumeFlush_frame (k : Nat) (s : State) :
    ∃ c a f, resumeFlush k s = { s with calls := c, acks := a, flush := f } := by
  rw [resumeFlush]
  split
  · exact issueCalls_frame _ _ s
  · exact ⟨s.calls, s.acks, s.flush, rfl⟩
  · rename_i n _
    obtain ⟨c, a, f, h⟩ := issueCalls_frame ((flushCalls s.fb).drop (k + 1)) (k + 1) { s with acks := some n }
    exact ⟨c, a, f, h⟩

/-- A block that waits goes on waiting while the transport completes nothing (R139). -/
theorem resumeFlush_zero (k : Nat) {s : State} (h : s.acks = some 0) : resumeFlush k s = s := by
  simp only [resumeFlush, h]

/-- A block that waits makes all the calls that are left when the transport completes every one (R97). -/
theorem resumeFlush_prompt (k : Nat) {s : State} (h : s.acks = none) :
    resumeFlush k s = { s with
      calls := (((flushCalls s.fb).drop (k + 1)).map Call.disp).reverse ++ s.calls, flush := none } := by
  simp only [resumeFlush, h]
  rw [issueCalls_prompt _ _ s h, h]

/-- A completion left over is used for the awaited call, and the calls after it follow (R97). -/
theorem resumeFlush_succ (k : Nat) {s : State} {n : Nat} (h : s.acks = some (n + 1)) :
    resumeFlush k s = issueCalls ((flushCalls s.fb).drop (k + 1)) (k + 1) { s with acks := some n } := by
  simp only [resumeFlush, h]

/-- A flush that a transport completes throughout: its 505 calls and nothing else (R97). -/
theorem startFlush_prompt (s : State) (h : s.acks = none) :
    startFlush s = { s with calls := ((flushCalls s.fb).map Call.disp).reverse ++ s.calls, flush := none } :=
  issueCalls_prompt _ _ _ h

/-- A flush that a transport completes with `n` of its completions left: the same, and 505 of them are used. -/
theorem startFlush_enough (s : State) {n : Nat} (h : s.acks = some n) (hn : 505 ≤ n) :
    startFlush s = { s with
      calls := ((flushCalls s.fb).map Call.disp).reverse ++ s.calls, flush := none, acks := some (n - 505) } := by
  rw [startFlush, issueCalls_enough _ _ n s h (by rw [flushCalls_length]; exact hn), flushCalls_length]

/-- A flush that waits: its first `n + 1` calls, and the wait for the last of them (R139). -/
theorem startFlush_stall (s : State) {n : Nat} (h : s.acks = some n) (hn : n < 505) :
    startFlush s = { s with
      calls := (((flushCalls s.fb).take (n + 1)).map Call.disp).reverse ++ s.calls, flush := some n,
      acks := some 0 } := by
  rw [startFlush, issueCalls_stall _ _ n s h (by rw [flushCalls_length]; exact hn), Nat.zero_add]

end Sys2Proof.Machine
end

