-- ==== Sys2Proof/Laws/Memory.lean ====
section
/-! SUPPORT. The laws of the framebuffer's bytes: a read after a write, and the canonical form that every write keeps. -/
namespace Sys2Proof.Machine

/-- The addresses of a list rise strictly. -/
abbrev Memory.sorted (m : Memory) : Prop := m.Pairwise (fun c d => c.1 < d.1)

@[simp] theorem Memory.unlisted_eq : Memory.unlisted = 0 := rfl

@[simp] theorem Memory.read_nil (a : Nat) : Memory.read [] a = 0 := rfl

theorem Memory.read_of_lt (m : Memory) (a : Nat) (h : ∀ c ∈ m, a < c.1) : Memory.read m a = 0 := by
  induction m with
  | nil => rfl
  | cons c m ih =>
    have hc := h c (by simp)
    simp only [Memory.read, if_neg (by omega : ¬ c.1 = a)]
    exact ih fun d hd => h d (by simp [hd])

/-- Every address of a written memory is the one written or was there before. -/
theorem Memory.mem_write {m : Memory} {a : Nat} {v : Byte} {c : Host.Cell} (h : c ∈ Memory.write m a v) :
    (c = (a, v) ∧ v ≠ Memory.unlisted) ∨ c ∈ m := by
  induction m with
  | nil =>
    simp only [Memory.write] at h
    split at h
    · simp at h
    · rename_i hv
      exact .inl ⟨by simpa using h, hv⟩
  | cons d m ih =>
    obtain ⟨b, u⟩ := d
    simp only [Memory.write] at h
    split at h
    · split at h
      · exact .inr h
      · rename_i hv
        rcases List.mem_cons.1 h with h | h
        · exact .inl ⟨h, hv⟩
        · exact .inr h
    · split at h
      · split at h
        · exact .inr (by simp [h])
        · rename_i hv
          rcases List.mem_cons.1 h with h | h
          · exact .inl ⟨h, hv⟩
          · exact .inr (by simp [h])
      · rcases List.mem_cons.1 h with h | h
        · exact .inr (by simp [h])
        · rcases ih h with h | h
          · exact .inl h
          · exact .inr (by simp [h])

theorem Memory.sorted_write {m : Memory} (hm : Memory.sorted m) (a : Nat) (v : Byte) :
    Memory.sorted (Memory.write m a v) := by
  induction m with
  | nil => simp only [Memory.write]; split <;> simp [Memory.sorted]
  | cons d m ih =>
    obtain ⟨b, u⟩ := d
    have hd := List.pairwise_cons.1 hm
    simp only [Memory.write]
    split
    · rename_i hlt
      split
      · exact hm
      · refine List.pairwise_cons.2 ⟨fun c hc => ?_, hm⟩
        rcases List.mem_cons.1 hc with rfl | hc
        · exact hlt
        · exact Nat.lt_trans hlt (hd.1 c hc)
    · split
      · rename_i hab
        split
        · exact hd.2
        · exact List.pairwise_cons.2 ⟨fun c hc => hab ▸ hd.1 c hc, hd.2⟩
      · refine List.pairwise_cons.2 ⟨fun c hc => ?_, ih hd.2⟩
        rcases Memory.mem_write hc with ⟨rfl, -⟩ | hc
        · show b < a
          omega
        · exact hd.1 c hc

/-- Every write at a framebuffer index keeps the canonical form. -/
theorem Memory.wf_write {m : Memory} (hm : Memory.wf m) {a : Nat} (ha : a < Config.fbBytes) (v : Byte) :
    Memory.wf (Memory.write m a v) := by
  refine ⟨Memory.sorted_write hm.1 a v, fun c hc => ?_⟩
  rcases Memory.mem_write hc with ⟨rfl, hv⟩ | hc
  · exact ⟨hv, ha⟩
  · exact hm.2 c hc

/-- A read after a write: the byte written, and every other byte as before. -/
theorem Memory.read_write {m : Memory} (hm : Memory.sorted m) (a : Nat) (v : Byte) (b : Nat) :
    Memory.read (Memory.write m a v) b = if b = a then v else Memory.read m b := by
  induction m with
  | nil =>
    simp only [Memory.write]
    split
    · rename_i hv
      simp [hv]
    · simp only [Memory.read, Memory.unlisted, eq_comm (a := a)]
  | cons d m ih =>
    obtain ⟨x, u⟩ := d
    have hd := List.pairwise_cons.1 hm
    have hlt : ∀ c, c ≤ x → Memory.read m c = 0 := fun c hc =>
      Memory.read_of_lt m c fun e he => Nat.lt_of_le_of_lt hc (hd.1 e he)
    simp only [Memory.write]
    split
    · rename_i hax
      split
      · rename_i hv
        by_cases hb : b = a
        · subst hb
          simp [Memory.read, hv, hlt b (by omega), show ¬ x = b by omega]
        · simp [hb]
      · by_cases hb : b = a
        · simp [Memory.read, hb]
        · simp [Memory.read, hb, Ne.symm hb]
    · split
      · rename_i hax
        subst hax
        split
        · rename_i hv
          by_cases hb : b = a
          · subst hb
            simp [hv, hlt b (by omega)]
          · simp [Memory.read, hb, Ne.symm hb]
        · by_cases hb : b = a
          · simp [Memory.read, hb]
          · simp [Memory.read, hb, Ne.symm hb]
      · rename_i h1 h2
        simp only [Memory.read, ih hd.2]
        by_cases hb : x = b
        · simp [hb, show ¬ b = a by omega]
        · simp [hb]

theorem Memory.sorted_foldl_write (l : List Nat) {m : Memory} (hm : Memory.sorted m) :
    Memory.sorted (l.foldl (fun m i => Memory.write m i 0x00) m) := by
  induction l generalizing m with
  | nil => exact hm
  | cons i l ih => exact ih (Memory.sorted_write hm i 0x00)

theorem Memory.read_foldl_write (l : List Nat) {m : Memory} (hm : Memory.sorted m) (b : Nat) :
    Memory.read (l.foldl (fun m i => Memory.write m i 0x00) m) b = if b ∈ l then 0 else Memory.read m b := by
  induction l generalizing m with
  | nil => simp
  | cons i l ih =>
    rw [List.foldl_cons, ih (Memory.sorted_write hm i 0x00), Memory.read_write hm]
    by_cases h1 : b ∈ l <;> by_cases h2 : b = i <;> simp [h1, h2]

theorem Memory.mem_foldl_write {l : List Nat} {m : Memory} {c : Host.Cell}
    (h : c ∈ l.foldl (fun m i => Memory.write m i 0x00) m) : c ∈ m := by
  induction l generalizing m with
  | nil => exact h
  | cons i l ih =>
    rcases Memory.mem_write (ih h) with ⟨-, hv⟩ | h
    · exact absurd rfl hv
    · exact h

/-- Zeroing keeps the canonical form. -/
theorem zeroBytes_wf {m : Memory} (hm : Memory.wf m) : Memory.wf (zeroBytes m) :=
  ⟨Memory.sorted_foldl_write _ hm.1, fun c hc => hm.2 c (Memory.mem_foldl_write hc)⟩

/-- After zeroing every byte of the framebuffer reads 0x00. -/
theorem read_zeroBytes {m : Memory} (hm : Memory.wf m) (a : Nat) : Memory.read (zeroBytes m) a = 0 := by
  rw [zeroBytes, Memory.read_foldl_write _ hm.1]
  split
  · rfl
  · rename_i h
    have ha : Config.fbBytes ≤ a := by simpa using h
    clear h
    induction m with
    | nil => rfl
    | cons c m ih =>
      have hc := (hm.2 c (by simp)).2
      simp only [Memory.read, if_neg (by omega : ¬ c.1 = a)]
      exact ih ⟨(List.pairwise_cons.1 hm.1).2, fun d hd => hm.2 d (by simp [hd])⟩

/-- An address past the framebuffer is never listed (R40). -/
theorem Memory.read_oob {m : Memory} (h : Memory.wf m) {a : Nat} (ha : Config.fbBytes ≤ a) : Memory.read m a = 0 := by
  induction m with
  | nil => rfl
  | cons c m ih =>
    have hc := (h.2 c (by simp)).2
    simp only [Memory.read]
    rw [if_neg (by omega)]
    exact ih ⟨(List.pairwise_cons.1 h.1).2, fun d hd => h.2 d (by simp [hd])⟩

theorem Memory.eq_nil_of_read {m : Memory} (h : Memory.wf m) (h0 : ∀ a, Memory.read m a = 0) : m = [] := by
  cases m with
  | nil => rfl
  | cons c m =>
    have hc := h0 c.1
    simp only [Memory.read, if_true] at hc
    exact absurd hc (h.2 c (by simp)).1

/-- Equal contents are equal data. -/
theorem Memory.ext_of_read {m m' : Memory} (h : Memory.wf m) (h' : Memory.wf m')
    (e : ∀ a, Memory.read m a = Memory.read m' a) : m = m' := by
  induction m generalizing m' with
  | nil => exact (Memory.eq_nil_of_read h' fun a => (e a).symm).symm
  | cons c m ih =>
    cases m' with
    | nil => exact Memory.eq_nil_of_read h e
    | cons d m' =>
      obtain ⟨a, u⟩ := c
      obtain ⟨b, v⟩ := d
      have hp := List.pairwise_cons.1 h.1
      have hp' := List.pairwise_cons.1 h'.1
      have ha := e a
      have hb := e b
      simp only [Memory.read, if_true] at ha hb
      have hab : a = b := by
        rcases Nat.lt_trichotomy a b with hlt | heq | hlt
        · rw [if_neg (by omega), Memory.read_of_lt m' a fun c hc => Nat.lt_trans hlt (hp'.1 c hc)] at ha
          exact absurd ha (h.2 (a, u) (by simp)).1
        · exact heq
        · rw [if_neg (by omega), Memory.read_of_lt m b fun c hc => Nat.lt_trans hlt (hp.1 c hc)] at hb
          exact absurd hb.symm (h'.2 (b, v) (by simp)).1
      subst hab
      simp only [if_true] at ha
      subst ha
      congr 1
      refine ih ⟨hp.2, fun c hc => h.2 c (by simp [hc])⟩ ⟨hp'.2, fun c hc => h'.2 c (by simp [hc])⟩ fun x => ?_
      have hx := e x
      simp only [Memory.read] at hx
      by_cases hax : a = x
      · subst hax
        rw [Memory.read_of_lt m a hp.1, Memory.read_of_lt m' a hp'.1]
      · simpa [hax] using hx

/-- After zeroing there is nothing listed. -/
theorem zeroBytes_eq_nil {m : Memory} (hm : Memory.wf m) : zeroBytes m = [] :=
  Memory.eq_nil_of_read (zeroBytes_wf hm) fun a => read_zeroBytes hm a

/-- The memory after reset is in canonical form. -/
theorem reset_fb_wf : Memory.wf State.reset.fb := by simp [State.reset, Memory.wf]

end Sys2Proof.Machine
end

