-- ==== Sys2Proof/Laws/Fb.lean ====
section
/-! SUPPORT. What SetPixel, DrawGlyph and DrawString do to the framebuffer, said of one byte and of one pixel. -/
namespace Sys2Proof.Machine

theorem inGrid_iff (x y : Int) : inGrid x y = true ↔ (0 ≤ x ∧ x < 84) ∧ 0 ≤ y ∧ y < 48 := by
  simp [inGrid, and_assoc]

theorem pixelBit_lt (y : Int) : pixelBit y < 8 := by
  simp only [pixelBit]
  omega

/-- The byte of an in-grid pixel is one of the framebuffer's (R40, R91). -/
theorem pixelByte_lt {x y : Int} (h : inGrid x y = true) : pixelByte x y < Config.fbBytes := by
  rw [inGrid_iff] at h
  show (x + y / 8 * 84).toNat < 504
  omega

/-- Two in-grid pixels in the same bit of the same byte are the same pixel (R41). -/
theorem pixel_place_inj {x y u v : Int} (h : inGrid x y = true) (k : inGrid u v = true)
    (hbyte : pixelByte x y = pixelByte u v) (hbit : pixelBit y = pixelBit v) : x = u ∧ y = v := by
  rw [inGrid_iff] at h k
  change (x + y / 8 * 84).toNat = (u + v / 8 * 84).toNat at hbyte
  simp only [pixelBit] at hbit
  omega

theorem getLsbD_putBit (v : Byte) (b : Nat) (hb : b < 8) (c : Bool) (k : Nat) (hk : k < 8) :
    (putBit v b c).getLsbD k = if k = b then c else v.getLsbD k := by
  have h1 : (1#8).getLsbD (k - b) = decide (k - b = 0) := by
    rw [BitVec.getLsbD_one]
    simp
  have hff : (0xFF#8).getLsbD k = true := by
    have : k = 0 ∨ k = 1 ∨ k = 2 ∨ k = 3 ∨ k = 4 ∨ k = 5 ∨ k = 6 ∨ k = 7 := by omega
    rcases this with h | h | h | h | h | h | h | h <;> subst h <;> rfl
  have hs : (1#8 <<< b).getLsbD k = decide (k = b) := by
    rw [BitVec.getLsbD_shiftLeft, h1]
    by_cases h : k = b
    · simp [h, hb]
    · by_cases h' : k < b
      · simp [h, h']
      · have : ¬ k - b = 0 := by omega
        simp [h, this]
  cases c
  · simp only [putBit, Bool.false_eq_true, if_false, BitVec.getLsbD_and, BitVec.getLsbD_xor, hs]
    rw [hff]
    by_cases h : k = b <;> simp [h]
  · simp only [putBit, if_true, BitVec.getLsbD_or, hs]
    by_cases h : k = b <;> simp [h]

/-- SetPixel outside the grid does nothing (R91). -/
theorem setPixel_outside {x y : Int} (h : inGrid x y = false) (c : Bool) (m : Memory) : setPixel x y c m = m := by
  simp [setPixel, h]

/-- One byte after SetPixel inside the grid (R91). -/
theorem read_setPixel {m : Memory} (hm : Memory.sorted m) {x y : Int} (h : inGrid x y = true) (c : Bool) (a : Nat) :
    Memory.read (setPixel x y c m) a
      = if a = pixelByte x y then putBit (Memory.read m a) (pixelBit y) c else Memory.read m a := by
  simp only [setPixel, h, if_true, Memory.read_write hm]
  by_cases ha : a = pixelByte x y <;> simp [ha]

theorem setPixel_wf {m : Memory} (hm : Memory.wf m) (x y : Int) (c : Bool) : Memory.wf (setPixel x y c m) := by
  cases h : inGrid x y
  · rwa [setPixel_outside h]
  · simp only [setPixel, h, if_true]
    exact Memory.wf_write hm (pixelByte_lt h) _

theorem setPixel_sorted {m : Memory} (hm : Memory.sorted m) (x y : Int) (c : Bool) :
    Memory.sorted (setPixel x y c m) := by
  cases h : inGrid x y
  · rwa [setPixel_outside h]
  · simp only [setPixel, h, if_true]
    exact Memory.sorted_write hm _ _

/-- One pixel after SetPixel: the one written, when it is in the grid, and every other as before (R91). -/
theorem pixel_setPixel {m : Memory} (hm : Memory.sorted m) (x y : Int) (c : Bool) (u v : Int) :
    pixel (setPixel x y c m) u v = if inGrid x y = true ∧ u = x ∧ v = y then c else pixel m u v := by
  cases h : inGrid x y
  · simp [setPixel_outside h]
  · by_cases k : inGrid u v = true
    · simp only [pixel, k, Bool.true_and, read_setPixel hm h, true_and]
      by_cases hbyte : pixelByte u v = pixelByte x y
      · rw [if_pos hbyte, getLsbD_putBit _ _ (pixelBit_lt y) _ _ (pixelBit_lt v)]
        by_cases hbit : pixelBit v = pixelBit y
        · obtain ⟨rfl, rfl⟩ := pixel_place_inj k h hbyte hbit
          simp
        · rw [if_neg hbit, if_neg]
          rintro ⟨-, rfl⟩
          exact hbit rfl
      · rw [if_neg hbyte, if_neg]
        rintro ⟨rfl, rfl⟩
        exact hbyte rfl
    · have : ¬ (u = x ∧ v = y) := by
        rintro ⟨rfl, rfl⟩
        exact k h
      simp [pixel, k, this]

theorem paint_cons (p : Int × Int) (ps : List (Int × Int)) (m : Memory) :
    paint (p :: ps) m = paint ps (setPixel p.1 p.2 true m) := rfl

theorem paint_append (ps qs : List (Int × Int)) (m : Memory) : paint (ps ++ qs) m = paint qs (paint ps m) := by
  simp [paint, List.foldl_append]

theorem paint_wf (ps : List (Int × Int)) {m : Memory} (hm : Memory.wf m) : Memory.wf (paint ps m) := by
  induction ps generalizing m with
  | nil => exact hm
  | cons p ps ih => exact ih (setPixel_wf hm _ _ _)

theorem paint_sorted (ps : List (Int × Int)) {m : Memory} (hm : Memory.sorted m) : Memory.sorted (paint ps m) := by
  induction ps generalizing m with
  | nil => exact hm
  | cons p ps ih => exact ih (setPixel_sorted hm _ _ _)

/-- One pixel after painting a list of points: set when it was set or is one of them (R93). -/
theorem pixel_paint (ps : List (Int × Int)) {m : Memory} (hm : Memory.sorted m) (u v : Int) :
    pixel (paint ps m) u v = (pixel m u v || (inGrid u v && decide ((u, v) ∈ ps))) := by
  induction ps generalizing m with
  | nil => simp [paint]
  | cons p ps ih =>
    obtain ⟨x, y⟩ := p
    rw [paint_cons, ih (setPixel_sorted hm _ _ _), pixel_setPixel hm]
    by_cases huv : u = x ∧ v = y
    · obtain ⟨rfl, rfl⟩ := huv
      cases h : inGrid u v <;> simp
    · have hne : ((u, v) = (x, y)) ↔ False := by simpa [Prod.ext_iff] using huv
      rw [if_neg (fun h => huv h.2)]
      simp [hne]

/-- A byte that holds no painted pixel is unchanged. -/
theorem read_paint_untouched (ps : List (Int × Int)) {m : Memory} (hm : Memory.sorted m) (a : Nat)
    (h : ∀ p ∈ ps, inGrid p.1 p.2 = true → pixelByte p.1 p.2 ≠ a) :
    Memory.read (paint ps m) a = Memory.read m a := by
  induction ps generalizing m with
  | nil => rfl
  | cons p ps ih =>
    rw [paint_cons, ih (setPixel_sorted hm _ _ _) fun q hq => h q (by simp [hq])]
    cases k : inGrid p.1 p.2
    · rw [setPixel_outside k]
    · rw [read_setPixel hm k, if_neg fun e => h p (by simp) k e.symm]

/-- The points of one block (R93). -/
theorem mem_blockPixels (x y : Int) (s : Nat) (u v : Int) :
    (u, v) ∈ blockPixels x y s ↔ ∃ dx < s, ∃ dy < s, u = x + (dx : Int) ∧ v = y + (dy : Int) := by
  simp only [blockPixels, List.mem_flatMap, List.mem_map, List.mem_range, Prod.mk.injEq]
  constructor
  · rintro ⟨dx, hx, dy, hy, rfl, rfl⟩
    exact ⟨dx, hx, dy, hy, rfl, rfl⟩
  · rintro ⟨dx, hx, dy, hy, rfl, rfl⟩
    exact ⟨dx, hx, dy, hy, rfl, rfl⟩

/-- The points of a glyph: a block for every set bit (R93). -/
theorem mem_glyphPixels (g : Glyph) (x y : Int) (s : Nat) (u v : Int) :
    (u, v) ∈ glyphPixels g x y s ↔
      ∃ col < 5, ∃ row < 8, glyphBit g col row = true
        ∧ ∃ dx < s, ∃ dy < s, u = x + ((col * s : Nat) : Int) + (dx : Int)
          ∧ v = y + ((row * s : Nat) : Int) + (dy : Int) := by
  simp only [glyphPixels, List.mem_flatMap, List.mem_range]
  constructor
  · rintro ⟨col, hc, row, hr, h⟩
    split at h
    · rename_i hg
      exact ⟨col, hc, row, hr, hg, by simpa using (mem_blockPixels _ _ _ _ _).1 h⟩
    · simp at h
  · rintro ⟨col, hc, row, hr, hg, h⟩
    refine ⟨col, hc, row, hr, ?_⟩
    rw [if_pos hg, mem_blockPixels]
    simpa using h

/-- Two framebuffers with the same pixels are the same (R41). -/
theorem Memory.ext_of_pixel {m m' : Memory} (h : Memory.wf m) (h' : Memory.wf m')
    (e : ∀ u v, pixel m u v = pixel m' u v) : m = m' := by
  refine Memory.ext_of_read h h' fun a => ?_
  by_cases ha : a < 504
  · apply BitVec.eq_of_getLsbD_eq
    intro k hk
    have hu := e ((a % 84 : Nat) : Int) ((a / 84 * 8 + k : Nat) : Int)
    have hg : inGrid ((a % 84 : Nat) : Int) ((a / 84 * 8 + k : Nat) : Int) = true := by
      rw [inGrid_iff]
      omega
    have hb : pixelByte ((a % 84 : Nat) : Int) ((a / 84 * 8 + k : Nat) : Int) = a := by
      show (((a % 84 : Nat) : Int) + ((a / 84 * 8 + k : Nat) : Int) / 8 * 84).toNat = a
      omega
    have hk' : pixelBit ((a / 84 * 8 + k : Nat) : Int) = k := by
      simp only [pixelBit]
      omega
    rw [pixel, pixel, hg, hb, hk', Bool.true_and, Bool.true_and] at hu
    exact hu
  · rw [Memory.read_oob h (by show 504 ≤ a; omega), Memory.read_oob h' (by show 504 ≤ a; omega)]

end Sys2Proof.Machine
end

