-- ==== Sys2Proof/Laws/Port.lean ====
section
/-! SUPPORT. What a step is in each situation of the environment and the block, and which registers a read can see. -/
namespace Sys2Proof.Machine

/-- With no event waiting, a step is the block's turn after the free advance. -/
theorem step_of_env_nil {s : State} (h : s.env = []) : step s = blockTurn (elapse s) := by
  simp only [step, stepBody, turn, elapse_env, h]

/-- With an event waiting, a step is that event after the free advance. -/
theorem step_of_env_cons {s : State} {e : EnvEvent} {rest : List EnvEvent} (h : s.env = e :: rest) :
    step s = envTurn e { elapse s with env := rest } := by
  simp only [step, stepBody, turn, elapse_env, h]

/-- A faulted block only discards (R134). -/
theorem blockTurn_of_faulted {s : State} (h : s.faulted = true) : blockTurn s = .next (discardWord s) := by
  simp only [blockTurn, h, if_true]

/-- A block inside a flush only goes on with it (R155). -/
theorem blockTurn_of_flush {s : State} {k : Nat} (h : s.faulted = false) (hk : s.flush = some k) :
    blockTurn s = .next (resumeFlush k s) := by
  simp only [blockTurn, h, hk, Bool.false_eq_true, if_false]

/-- Any other block takes a command (R56). -/
theorem blockTurn_of_idle {s : State} (h : s.faulted = false) (hk : s.flush = none) :
    blockTurn s = takeCommand s := by
  simp only [blockTurn, h, hk, Bool.false_eq_true, if_false]

/-- One step of a block that accepts commands, with no event waiting. -/
theorem step_of_ready {s : State} (h : s.Ready) (he : s.env = []) : step s = takeCommand (elapse s) := by
  rw [step_of_env_nil he, blockTurn_of_idle (s := elapse s) h.noFault h.noFlush]

/-- What a block with an empty CMD_BUF can take is what stands at the port. -/
theorem pendingWords_of_ready {s : State} (h : s.Ready) : pendingWords (elapse s) = s.port := by
  simp only [pendingWords, elapse_cmdBuf, elapse_port, h.noWords, List.nil_append]

/-- A register has a value exactly for the numbers 0x00 to 0x0C (R126). -/
theorem readReg_cases (s : State) (n : Byte) :
    (n.toNat ≤ 0x0C ∧ ∃ v, readReg s n = some v) ∨ (0x0D ≤ n.toNat ∧ readReg s n = none) := by
  unfold readReg
  split
  case h_14 =>
    right
    refine ⟨?_, rfl⟩
    by_contra hc
    have : n.toNat = 0 ∨ n.toNat = 1 ∨ n.toNat = 2 ∨ n.toNat = 3 ∨ n.toNat = 4 ∨ n.toNat = 5 ∨ n.toNat = 6
        ∨ n.toNat = 7 ∨ n.toNat = 8 ∨ n.toNat = 9 ∨ n.toNat = 10 ∨ n.toNat = 11 ∨ n.toNat = 12 := by omega
    rcases this with h | h | h | h | h | h | h | h | h | h | h | h | h <;> simp_all
  all_goals
    left
    exact ⟨by omega, _, rfl⟩

/-- No register shows the drive clock's advance or the events still waiting. -/
theorem readReg_elapse (s : State) (rest : List EnvEvent) (n : Byte) :
    readReg { elapse s with env := rest } n = readReg s n := rfl

/-- FB_FLUSH changes nothing but the calls, the completions left and the wait. -/
theorem startFlush_frame (s : State) :
    ∃ c a f, startFlush s = { s with calls := c, acks := a, flush := f } := issueCalls_frame _ _ s

end Sys2Proof.Machine
end

