-- ==== Sys2Proof/Laws/Tone.lean ====
section
/-! SUPPORT. The waveform counter and the period count. -/
namespace Sys2Proof.Machine

/-- The counter inside its period after `n` cycles (R79). -/
theorem tickCntN_toNat (top : Word) (n : Nat) (cnt : Word) (h : cnt.toNat < top.toNat) :
    (tickCntN top n cnt).toNat = (cnt.toNat + n) % top.toNat := by
  induction n generalizing cnt with
  | zero => simp [tickCntN, Nat.mod_eq_of_lt h]
  | succ n ih =>
    have hpos : 0 < top.toNat := by omega
    have hlt : (cnt.toNat + 1) % top.toNat < top.toNat := Nat.mod_lt _ hpos
    have hw : (tickCnt top cnt).toNat = (cnt.toNat + 1) % top.toNat := by
      have : top.toNat < 2 ^ 32 := top.isLt
      simp only [tickCnt, BitVec.toNat_ofNat]
      exact Nat.mod_eq_of_lt (by omega)
    rw [tickCntN, ih _ (by rw [hw]; exact hlt), hw, Nat.mod_add_mod]
    congr 1
    omega

theorem tickCntN_lt (top : Word) (n : Nat) (cnt : Word) (h : cnt.toNat < top.toNat) :
    (tickCntN top n cnt).toNat < top.toNat := by
  rw [tickCntN_toNat top n cnt h]
  exact Nat.mod_lt _ (by omega)

/-- The bounds of the period count at a legal frequency. -/
theorem period_bounds {f : Nat} (h1 : 20 ≤ f) (h2 : f ≤ 20000) : 2 ≤ period f ∧ period f < 2 ^ 32 := by
  have hlo := driveClkHz_ge
  have hhi := driveClkHz_lt
  have h3 : Config.driveClkHz / f ≤ Config.driveClkHz / 20 := Nat.div_le_div_left h1 (by decide)
  simp only [period, periodWith]
  refine ⟨(Nat.le_div_iff_mul_le (by omega)).2 (by omega), by omega⟩

/-- TONE_PLAY outside the precondition raises FREQ_RANGE before any effect. -/
theorem execTonePlay_range {freq : Half} (h0 : freq.toNat ≠ 0) (h : freq.toNat < 20 ∨ 20000 < freq.toNat) (s : State) :
    execTonePlay freq s = .next (raiseFault .freqRange (Instr.tonePlay freq).word0 s) := by
  simp only [execTonePlay]
  rw [if_neg h0, if_pos h]

/-- TONE_PLAY at a legal frequency is the stop-then-start with its period. -/
theorem execTonePlay_legal {freq : Half} (h1 : 20 ≤ freq.toNat) (h2 : freq.toNat ≤ 20000) (s : State) :
    execTonePlay freq s = .next (toneRestart (period freq.toNat) s) := by
  simp only [execTonePlay]
  have h0 : ¬ freq.toNat = 0 := by omega
  have h : ¬ (freq.toNat < 20 ∨ 20000 < freq.toNat) := by omega
  rw [if_neg h0, if_neg h]

/-- Everything TONE_PLAY can do: silence, fault, or restart at a legal frequency. -/
theorem execTonePlay_cases (freq : Half) (s : State) :
    (freq.toNat = 0 ∧ execTonePlay freq s = .next (toneSetDuty 0 s))
      ∨ ((freq.toNat ≠ 0 ∧ (freq.toNat < 20 ∨ 20000 < freq.toNat))
          ∧ execTonePlay freq s = .next (raiseFault .freqRange (Instr.tonePlay freq).word0 s))
      ∨ ((20 ≤ freq.toNat ∧ freq.toNat ≤ 20000)
          ∧ execTonePlay freq s = .next (toneRestart (period freq.toNat) s)) := by
  by_cases h0 : freq.toNat = 0
  · left
    refine ⟨h0, ?_⟩
    simp only [execTonePlay]
    rw [if_pos h0]
  · by_cases h : freq.toNat < 20 ∨ 20000 < freq.toNat
    · exact .inr (.inl ⟨⟨h0, h⟩, execTonePlay_range h0 h s⟩)
    · exact .inr (.inr ⟨by omega, execTonePlay_legal (by omega) (by omega) s⟩)

/-- The registers a restart leaves, as numbers: nothing is cut at a legal frequency. -/
theorem toneRestart_toNat {p : Nat} (hp : p < 2 ^ 32) (s : State) :
    (toneRestart p s).toneTop.toNat = p ∧ (toneRestart p s).toneHigh.toNat = p / 2 := by
  constructor
  · show (BitVec.ofNat 32 p).toNat = p
    rw [BitVec.toNat_ofNat, Nat.mod_eq_of_lt hp]
  · show (BitVec.ofNat 32 (p / 2)).toNat = p / 2
    rw [BitVec.toNat_ofNat, Nat.mod_eq_of_lt (by omega)]

end Sys2Proof.Machine
end

