-- ==== Sys2Proof/Laws/Exec.lean ====
section
/-! SUPPORT. What every command leaves alone, which calls it can add, and that each one keeps the invariant. -/
namespace Sys2Proof.Machine

theorem exec_fbFlush (s : State) : exec .fbFlush s = .next (startFlush s) := rfl

theorem exec_fbClear (s : State) : exec .fbClear s = .next (startFlush { s with fb := zeroBytes s.fb }) := rfl

/-- No command touches the port, the events, the last answer or the count of draws. -/
theorem exec_frame {i : Instr} {s t : State} (h : exec i s = .next t) :
    t.port = s.port ∧ t.env = s.env ∧ t.readData = s.readData ∧ t.draws = s.draws := by
  cases i with
  | tonePlay freq =>
    rcases execTonePlay_cases freq s with ⟨-, e⟩ | ⟨-, e⟩ | ⟨-, e⟩ <;> rw [exec, e] at h <;> cases h <;>
      exact ⟨rfl, rfl, rfl, rfl⟩
  | fbClear =>
    obtain ⟨c, a, f, e⟩ := startFlush_frame { s with fb := zeroBytes s.fb }
    cases h
    rw [e]
    exact ⟨rfl, rfl, rfl, rfl⟩
  | fbFlush =>
    obtain ⟨c, a, f, e⟩ := startFlush_frame s
    cases h
    rw [e]
    exact ⟨rfl, rfl, rfl, rfl⟩
  | fbPeek index =>
    simp only [exec, execFbPeek] at h
    split at h <;> cases h <;> exact ⟨rfl, rfl, rfl, rfl⟩
  | dbSetThresh btn ms => cases btn <;> cases h <;> exact ⟨rfl, rfl, rfl, rfl⟩
  | _ => cases h; exact ⟨rfl, rfl, rfl, rfl⟩

/-- `t` has made the calls of `s` and perhaps more, none of them `writeCommandByte`. -/
def addsCalls (s t : State) : Prop := ∃ new, t.calls = new ++ s.calls ∧ ∀ b, Call.disp (.command b) ∉ new

theorem addsCalls_of_eq {s t : State} (h : t.calls = s.calls) : addsCalls s t := ⟨[], by simp [h], by simp⟩

/-- The calls of display calls that are no `writeCommandByte`. -/
theorem addsCalls_issueCalls (cs : List DispCall) (k : Nat) (s : State) (hc : ∀ c ∈ cs, ∀ b, c ≠ .command b) :
    addsCalls s (issueCalls cs k s) := by
  obtain ⟨n, h⟩ := issueCalls_calls cs k s
  refine ⟨_, h, fun b hb => ?_⟩
  obtain ⟨c, hc', e⟩ := List.mem_map.1 (List.mem_reverse.1 hb)
  cases e
  exact hc _ (List.mem_of_mem_take hc') b rfl

theorem addsCalls_startFlush (s : State) : addsCalls s (startFlush s) :=
  addsCalls_issueCalls _ _ _ fun _ h b => flushCalls_not_command _ h b

theorem addsCalls_resumeFlush (k : Nat) (s : State) : addsCalls s (resumeFlush k s) := by
  have hd : ∀ c ∈ (flushCalls s.fb).drop (k + 1), ∀ b, c ≠ .command b := fun _ h b =>
    flushCalls_not_command _ (List.mem_of_mem_drop h) b
  rw [resumeFlush]
  split
  · exact addsCalls_issueCalls _ _ _ hd
  · exact addsCalls_of_eq rfl
  · exact addsCalls_issueCalls _ _ { s with acks := some _ } hd

/-- No command calls `writeCommandByte` or takes a call back (R16). -/
theorem exec_calls {i : Instr} {s t : State} (h : exec i s = .next t) : addsCalls s t := by
  cases i with
  | tonePlay freq =>
    rcases execTonePlay_cases freq s with ⟨-, e⟩ | ⟨-, e⟩ | ⟨-, e⟩ <;> rw [exec, e] at h <;> cases h
    · exact ⟨[_], rfl, by simp⟩
    · exact addsCalls_of_eq rfl
    · exact ⟨[_, _, _, _], rfl, by simp⟩
  | toneStop =>
    cases h
    exact ⟨[_], rfl, by simp⟩
  | fbClear =>
    obtain ⟨new, h1, h2⟩ := addsCalls_startFlush { s with fb := zeroBytes s.fb }
    cases h
    exact ⟨new, h1, h2⟩
  | fbFlush =>
    cases h
    exact addsCalls_startFlush s
  | fbPeek index =>
    simp only [exec, execFbPeek] at h
    split at h <;> cases h <;> exact addsCalls_of_eq rfl
  | dbSetThresh btn ms => cases btn <;> cases h <;> exact addsCalls_of_eq rfl
  | _ => cases h; exact addsCalls_of_eq rfl

/-- A flush that is under way or done keeps the invariant. -/
theorem inv_issueCalls {s : State} (hs : s.Inv) (hf : s.faulted = false) (hw : s.cmdBuf = []) {cs : List DispCall}
    {k : Nat} (hk : k + cs.length ≤ 505) : (issueCalls cs k s).Inv := by
  obtain ⟨c, a, f, e⟩ := issueCalls_frame cs k s
  have hfl : ∀ j, f = some j → j < 505 := fun j hj => by
    have := issueCalls_flush_lt cs k s (j := j) (by rw [e]; exact hj)
    omega
  rw [e]
  exact { fbWf := hs.fbWf, toneRuns := hs.toneRuns, noFault := hs.noFault,
          faulted := fun h => by simp [hf] at h, cmdBuf := hs.cmdBuf, cmdBufLength := hs.cmdBufLength,
          flush := fun j hj => ⟨hfl j hj, hw⟩, events := hs.events }

end Sys2Proof.Machine
end

