-- ==== Sys2Proof/Laws/PerInstr.lean ====
section
/-! SUPPORT. One statement made of every instruction: how many words its encoding has (R68, R36). -/
namespace Sys2Proof

/-- The length a word 0 announces, from its opcode byte (R55, R68). -/
theorem commandLength_of_code {w : Word} {o : Opcode} (h : w.toNat / 2 ^ 24 = o.code) :
    commandLength w = 1 + o.extWords w := by
  simp only [commandLength, (ofByte_opcodeByte_iff w o).2 h]

end Sys2Proof

namespace Sys2Proof.Laws.Length

/-- A well-formed command has as many words as its word 0 announces, and never more than 66. -/
def Statement (i : Instr) : Prop :=
  i.wf = true → (encode i).length = commandLength i.word0 ∧ (encode i).length ≤ 66

theorem nop : Statement .nop := fun _ => by decide

theorem tonePlay (freq : Half) : Statement (.tonePlay freq) := fun _ => by
  have h : (0x10#8 ++ 0#8 ++ freq : BitVec 32).toNat / 2 ^ 24 = Opcode.tonePlay.code := by
    have := freq.isLt
    rw [toNat_concat, toNat_concat]
    simp only [Opcode.code, BitVec.toNat_ofNat]
    omega
  exact ⟨(commandLength_of_code h).symm, by simp [encode]⟩

theorem toneStop : Statement .toneStop := fun _ => by decide

theorem fbClear : Statement .fbClear := fun _ => by decide

theorem fbSetPixel (color : BitVec 1) (x y : Half) : Statement (.fbSetPixel color x y) := fun _ => by
  have h : (0x21#8 ++ 0#23 ++ color : BitVec 32).toNat / 2 ^ 24 = Opcode.fbSetPixel.code := by
    have := color.isLt
    rw [toNat_concat, toNat_concat]
    simp only [Opcode.code, BitVec.toNat_ofNat]
    omega
  exact ⟨(commandLength_of_code h).symm, by simp [encode]⟩

theorem fbDrawGlyph (ch scale : Byte) (x y : Half) : Statement (.fbDrawGlyph ch scale x y) := fun _ => by
  have h : (0x22#8 ++ scale ++ 0#8 ++ ch : BitVec 32).toNat / 2 ^ 24 = Opcode.fbDrawGlyph.code := by
    have := ch.isLt
    have := scale.isLt
    rw [toNat_concat, toNat_concat, toNat_concat]
    simp only [Opcode.code, BitVec.toNat_ofNat]
    omega
  exact ⟨(commandLength_of_code h).symm, by simp [encode]⟩

theorem fbDrawString (scale spacing : Byte) (x y : Half) (text : List Byte) :
    Statement (.fbDrawString scale spacing x y text) := fun hwf => by
  have hl : text.length ≤ 255 := of_decide_eq_true hwf
  have hs := scale.isLt
  have hp := spacing.isLt
  have hw : (0x23#8 ++ scale ++ spacing ++ BitVec.ofNat 8 text.length : BitVec 32).toNat
      = ((0x23 * 2 ^ 8 + scale.toNat) * 2 ^ 8 + spacing.toNat) * 2 ^ 8 + text.length := by
    rw [toNat_concat, toNat_concat, toNat_concat, BitVec.toNat_ofNat text.length, Nat.mod_eq_of_lt (by omega)]
    rfl
  have h : (0x23#8 ++ scale ++ spacing ++ BitVec.ofNat 8 text.length : BitVec 32).toNat / 2 ^ 24
      = Opcode.fbDrawString.code := by
    rw [hw]
    simp only [Opcode.code]
    omega
  have hlen : (encode (.fbDrawString scale spacing x y text)).length = 2 + textWordCount text.length := by
    simp only [encode, List.length_cons, length_packText]
    omega
  refine ⟨?_, ?_⟩
  · rw [hlen, Instr.word0, encode, List.headD_cons, commandLength_of_code h, Opcode.extWords, field_toNat, hw]
    rw [show (((0x23 * 2 ^ 8 + scale.toNat) * 2 ^ 8 + spacing.toNat) * 2 ^ 8 + text.length) / 2 ^ 0 % 2 ^ 8
      = text.length by omega]
    omega
  · rw [hlen, textWordCount]
    omega

theorem fbFlush : Statement .fbFlush := fun _ => by decide

theorem fbCenter (w h : Half) : Statement (.fbCenter w h) := fun _ => by
  have e : (Instr.fbCenter w h).word0 = 0x25000000 := rfl
  rw [e]
  exact ⟨rfl, by simp [encode]⟩

theorem fbPeek (index : BitVec 9) : Statement (.fbPeek index) := fun _ => by
  have h : (0x26#8 ++ 0#15 ++ index : BitVec 32).toNat / 2 ^ 24 = Opcode.fbPeek.code := by
    have := index.isLt
    rw [toNat_concat, toNat_concat]
    simp only [Opcode.code, BitVec.toNat_ofNat]
    omega
  exact ⟨(commandLength_of_code h).symm, by simp [encode]⟩

theorem dbSample (rawA rawB : BitVec 1) (now : Word) : Statement (.dbSample rawA rawB now) := fun _ => by
  have h : (0x30#8 ++ 0#22 ++ rawB ++ rawA : BitVec 32).toNat / 2 ^ 24 = Opcode.dbSample.code := by
    have := rawA.isLt
    have := rawB.isLt
    rw [toNat_concat, toNat_concat, toNat_concat]
    simp only [Opcode.code, BitVec.toNat_ofNat]
    omega
  exact ⟨(commandLength_of_code h).symm, by simp [encode]⟩

theorem dbSetThresh (btn : Button) (ms : Half) : Statement (.dbSetThresh btn ms) := fun _ => by
  have h : (0x31#8 ++ 0#7 ++ bitOfButton btn ++ ms : BitVec 32).toNat / 2 ^ 24 = Opcode.dbSetThresh.code := by
    have := ms.isLt
    have := (bitOfButton btn).isLt
    rw [toNat_concat, toNat_concat, toNat_concat]
    simp only [Opcode.code, BitVec.toNat_ofNat]
    omega
  exact ⟨(commandLength_of_code h).symm, by simp [encode]⟩

end Sys2Proof.Laws.Length
end

