-- ==== Sys2Proof/Tests/Slice0.lean ====
section
/-! SUPPORT. The model's own tests. Expected values are those of spec/95_test_vectors.md (its sections are named) or are
worked out by hand from the rule named; `witness_` theorems show that the hypotheses of a statement can be met. -/
namespace Sys2Proof.Tests
open Sys2Proof Sys2Proof.Machine

/-- The state of a next outcome. -/
def nextOf (o : Host.Outcome State Fault Refusal) : Option State :=
  match o with
  | .next t => some t
  | .fault _ => none
  | .refused _ => none

/-- The state after reset with these words at the port and these events waiting. -/
def waiting (words : List Word) (env : List EnvEvent) : State := { State.reset with port := words, env := env }

/-- A tone of period 2 under way, in its low half. -/
def sounding : State := { State.reset with toneRun := true, toneTop := 2, toneHigh := 1, toneCnt := 1 }

/-- Button A pressed since time 100, button B since time 1000. -/
def bothPressed : State :=
  { State.reset with
    btnA := { State.reset.btnA with pressed := true, start := 100 }
    btnB := { State.reset.btnB with pressed := true, start := 1000 } }

/-- The test font TF (95, section 1). -/
def testFont (c : Byte) : Glyph :=
  if c = 0x2E then #v[0x01, 0x00, 0x00, 0x00, 0x00]
  else if c = 0x41 then #v[0xFF, 0xFF, 0xFF, 0xFF, 0xFF]
  else if c = 0x31 then #v[0x00, 0x42, 0x7F, 0x40, 0x00]
  else #v[0x00, 0x00, 0x00, 0x00, 0x00]

/-- FB after DrawGlyph with TF on a zero FB. -/
def drawn (ch : Byte) (x y : Int) (scale : Nat) : Memory := paint (charPixels (fontWith testFont) ch x y scale) []

/-- FB after DrawString with TF on a zero FB. -/
def written (text : List Byte) (x y : Int) (scale : Nat) (spacing : Int) : Memory :=
  paint (stringPixels (fontWith testFont) y scale spacing text x) []

/-! ### Well-formedness (R63, R7): an ill-formed term for each check -/

theorem test_wf_string_255 : (Instr.fbDrawString 1 0 0 0 (List.replicate 255 0x41)).wf = true := by
  decide +kernel

theorem test_wf_string_256 : (Instr.fbDrawString 1 0 0 0 (List.replicate 256 0x41)).wf = false := by
  decide +kernel

/-- A configuration with the example drive clock of 95. -/
def exampleParams : Params :=
  { driveClkHz := 1000000, freqMin := 20, freqMax := 20000, fbW := 84, fbH := 48, toneBits := 32 }

theorem test_params_good : exampleParams.wf = true := by decide

theorem test_params_band : { exampleParams with fbH := 47 }.wf = false := by decide

theorem test_params_slow_clock : { exampleParams with driveClkHz := 39999 }.wf = false := by decide

theorem test_params_fast_clock : { exampleParams with driveClkHz := 85899345920 }.wf = false := by decide

theorem test_params_wide : { exampleParams with fbW := 32768 }.wf = false := by decide

theorem test_params_high : { exampleParams with fbH := 32768 }.wf = false := by decide

/-! ### Decoding, one word or more a constructor, written out from R58 to R67 and the vectors of 95 -/

theorem test_decode_nop : decodeTableWord 32 0x00000000 = some .nop := by decide

/-- 95, section 3. -/
theorem test_decode_tone_play : decodeTableWord 32 0x10004E20 = some (.tonePlay 20000) := by decide

theorem test_decode_tone_stop : decodeTableWord 32 0x11000000 = some .toneStop := by decide

theorem test_decode_clear : decodeTableWord 32 0x20000000 = some .fbClear := by decide

/-- 95, section 4.1: the word 0 of the row, with the XY word FFFF0000. -/
theorem test_decode_set_pixel : decodeTableWord 64 0xFFFF000021000001 = some (.fbSetPixel 1 (-1) 0) := by decide

/-- 95, section 4.2. -/
theorem test_decode_draw_glyph :
    decode [0x2203002E, 0x0052002E] = .ok (.fbDrawGlyph 0x2E 3 82 46, []) := by decide

/-- 95, section 4.3: bytes 2 and 3 of the last TEXT word are ignored. -/
theorem test_decode_draw_string :
    decode [0x23010002, 0x00000000, 0xFFFF4241] = .ok (.fbDrawString 1 0 0 0 [0x41, 0x42], []) := by decide

theorem test_decode_flush : decodeTableWord 32 0x24000000 = some .fbFlush := by decide

/-- 95, section 4.4. -/
theorem test_decode_center : decode [0x25000000, 0x005A0010] = .ok (.fbCenter 90 16, []) := by decide

/-- 95, section 4.5. -/
theorem test_decode_peek : decodeTableWord 32 0x260001FF = some (.fbPeek 511) := by decide

/-- 95, section 5.1: RAWB is bit 1, RAWA bit 0. -/
theorem test_decode_sample : decode [0x30000002, 0x000013EC] = .ok (.dbSample 0 1 5100, []) := by decide

/-- 95, section 5.2. -/
theorem test_decode_threshold : decodeTableWord 32 0x3101FFFF = some (.dbSetThresh .b 65535) := by decide

/-- 95, section 7. -/
theorem test_decode_illegal : decode [0x27000000] = .error .illegalOpcode := by decide

/-- 95, section 4.5: bit 9 of FB_PEEK is reserved. -/
theorem test_decode_reserved : decode [0x26000200, 0x00000000] = .error .reservedField := by decide

/-- 95, section 7: LEN 5 needs two TEXT words. -/
theorem test_decode_incomplete : decode [0x23010105, 0x00000000, 0x41414141] = .error .incomplete := by decide

/-- 95, section 2.4. -/
theorem test_encode_string :
    encode (.fbDrawString 2 0 17 16 [0x31, 0x32, 0x3A, 0x33, 0x30])
      = [0x23020005, 0x00110010, 0x333A3231, 0x00000030] := by decide

/-! ### TONE (95, section 3, with its example drive clock) -/

theorem test_periods :
    (periodWith 1000000 20, periodWith 1000000 440, periodWith 1000000 480 / 2, periodWith 1000000 19999)
      = (50000, 2272, 1041, 50) := by decide

theorem test_tone_play_400 (h : Config.driveClkHz = 1000000) :
    exec (.tonePlay 400) State.reset = .next { State.reset with
      toneRun := true, toneTop := 2500, toneHigh := 1250,
      calls := [.tone .start, .tone (.setDuty 1250), .tone (.setTop 2500), .tone .stop] } := by
  rw [exec, execTonePlay_legal (by decide) (by decide), period, h]
  rfl

/-- The fault of `TONE_PLAY 19` while a tone plays: STATUS 0x33, and the tone plays on. -/
theorem test_tone_play_19 :
    (nextOf (exec (.tonePlay 19) sounding)).map (fun t => (statusWord t, t.faultWord, t.toneTop, t.calls))
      = some (0x00000033, 0x10000013, 2, []) := by decide

theorem test_tone_stop :
    (nextOf (exec .toneStop sounding)).map (fun t => (t.toneRun, t.toneTop, t.toneHigh, toneOut t, trace t))
      = some (false, 2, 1, false, [.tone .stop]) := by decide

/-- The counter runs modulo the period: 0 follows 2499. -/
theorem test_tone_wrap : tickCnt 2500 2499 = 0 := by decide

/-! ### FB -/

/-- 95, section 4.1. -/
theorem test_set_pixel_corner :
    (nextOf (exec (.fbSetPixel 1 83 47) State.reset)).map (fun t => t.fb) = some [(503, 0x80)] := by decide

/-- 95, section 2.6: no write outside the grid, although the formula alone names byte 84. -/
theorem test_set_pixel_outside :
    (nextOf (exec (.fbSetPixel 0 84 0) { State.reset with fb := [(84, 0x01)] })).map (fun t => t.fb)
      = some [(84, 0x01)] := by decide

/-- 95, section 4.2: only the part inside the grid. -/
theorem test_glyph_corner : drawn 0x2E 82 46 3 = [(502, 0xC0), (503, 0xC0)] := by decide

/-- 95, section 4.2: columns left of the grid are dropped. -/
theorem test_glyph_left : drawn 0x41 (-3) 0 1 = [(0, 0xFF), (1, 0xFF)] := by decide

/-- 95, section 4.3: a skipped character advances the cursor. -/
theorem test_string_skip : written [0x2E, 0x25, 0x2E] 0 0 1 1 = [(0, 0x01), (12, 0x01)] := by decide

/-- 95, section 2.4: TF's `1` of "12:30" at (17, 16), scale 2. -/
theorem test_string_band :
    written [0x31, 0x32, 0x3A, 0x33, 0x30] 17 16 2 0
      = [(187, 0x0C), (188, 0x0C), (189, 0xFF), (190, 0xFF), (271, 0x30), (272, 0x30), (273, 0x3F), (274, 0x3F),
         (275, 0x30), (276, 0x30)] := by decide

/-- R95: a 0x00 byte ends the string. -/
theorem test_string_end : written [0x2E, 0x00, 0x2E] 0 0 1 1 = [(0, 0x01)] := by decide

/-- R97: the second call is the byte at index 0. -/
theorem test_flush_first :
    (flushCalls [(0, 0x02)]).take 3 = [.setCursor 0 0, .data 0x02, .data 0x00] := by decide +kernel

/-- 95, section 4.5: a transport that never completes SetCursor leaves the block inside the flush. -/
theorem test_flush_stuck :
    (nextOf (exec .fbFlush { State.reset with acks := some 0 })).map (fun t => (t.flush, t.calls))
      = some (some 0, [.disp (.setCursor 0 0)]) := by decide

/-- 95, section 4.5: FB_CLEAR zeroes before the first call. -/
theorem test_clear :
    (nextOf (exec .fbClear { State.reset with fb := [(0, 0xFF), (4, 0xFF)], acks := some 1 })).map
        (fun t => (t.fb, trace t))
      = some ([], [.disp (.setCursor 0 0), .disp (.data 0x00)]) := by decide +kernel

/-- 95, section 4.4: register 0x04, an odd difference and a width past the display's. -/
theorem test_center :
    ((nextOf (exec (.fbCenter 81 45) State.reset)).map centerWord,
      (nextOf (exec (.fbCenter 90 16) State.reset)).map centerWord) = (some 0x00010001, some 0x00000010) := by decide

/-- 95, section 4.5. -/
theorem test_peek :
    (nextOf (exec (.fbPeek 503) { State.reset with fb := [(503, 0x80)] })).map (fun t => t.fbRdata)
      = some 0x80 := by decide

/-- 95, section 4.5. -/
theorem test_peek_range :
    (nextOf (exec (.fbPeek 504) State.reset)).map (fun t => (statusWord t, t.faultWord, t.fbRdata))
      = some (0x00000042, 0x260001F8, 0x00) := by decide

/-! ### DB -/

/-- 95, section 2.3: 499 ms is short and 500 ms long against button B's reset threshold. -/
theorem test_sample_499 :
    (nextOf (exec (.dbSample 0 1 1499) bothPressed)).map (fun t => (dbStateWord t, t.btnB.dur))
      = some (0x00000009, 499) := by decide

theorem test_sample_500 :
    (nextOf (exec (.dbSample 0 1 1500) bothPressed)).map (fun t => (dbStateWord t, t.btnB.dur))
      = some (0x00000029, 500) := by decide

/-- 95, section 5.2: a duration across the wrap of NOW. -/
theorem test_held_wrap : heldFor 0x100 0xFFFFFF00 = 512 := by decide

/-- 95, section 5.2. -/
theorem test_threshold :
    (nextOf (exec (.dbSetThresh .b 65535) State.reset)).map (fun t => (readReg t 0x0A, readReg t 0x0B))
      = some (some 0x000003E8, some 0x0000FFFF) := by decide

/-! ### System command, faults and the port -/

theorem test_nop : exec .nop State.reset = .next State.reset := rfl

/-- 95, section 6. -/
theorem test_read_unmapped : step (waiting [] [.read 0x0D]) = .refused (.unmappedRegister 0x0D) := rfl

/-- 95, section 7: the opcode is checked before everything else. -/
theorem test_fault_opcode :
    (nextOf (step (waiting [0xFF000001] []))).map (fun t => (statusWord t, t.faultWord, t.port))
      = some (0x00000012, 0xFF000001, []) := by decide

/-- 95, section 5.2: the TIME word after a reserved bit is not awaited, and is discarded in the next step. -/
theorem test_fault_reserved :
    (nextOf (step (waiting [0x30000004, 0x00000000] []))).map (fun t => (statusWord t, t.port))
      = some (0x00000022, [0x00000000]) := by decide

/-- R139: the words of an unfinished command are kept, and nothing is drawn. -/
theorem test_wait_words :
    (nextOf (step (waiting [0x23010105, 0x00000000, 0x41414141] []))).map (fun t => (t.cmdBuf, t.port, t.fb))
      = some ([0x23010105, 0x00000000, 0x41414141], [], []) := by decide

/-- R139: a block with no word is idle; it does not wait for words. -/
theorem test_idle : ¬ State.reset.waitsForWords := fun h => by cases h.2.2

/-- R56: a one-word command that the host writes runs in that step. -/
theorem test_write_runs :
    (nextOf (step (waiting [] [.write 0x310000C8]))).map (fun t => (t.btnA.thresh, t.port, t.env))
      = some (200, [], []) := by decide

/-- The instruction a row's bits place is the next one to run. -/
theorem test_fetch_word :
    (nextOf (step (State.reset.withFetchWord 32 0x310000C8))).map (fun t => t.btnA.thresh) = some 200 := by decide

/-! ### Assembler (95, section 9; R73) -/

theorem test_assembler :
    assembleProgram ["FB_CENTER 10, 8 ; centre".toList, "".toList, "FB_DRAW_STRING \"A.\", 37, 20, 1, 0".toList,
        "FB_PIXEL_ON 84, 0".toList, "FB_DRAW_GLYPH '.', -3, 0x5, 2".toList, "DB_SET_THRESH B, 500".toList]
      = .ok [0x25000000, 0x000A0008, 0x23010002, 0x00250014, 0x00002E41, 0x21000001, 0x00540000, 0x2202002E,
          0xFFFD0005, 0x310101F4] := by decide

theorem test_assembler_escapes :
    assembleLine "FB_DRAW_STRING \"\\x41;,\\\"\\\\\", 0, 0, 1, -5".toList
      = .ok (some (.fbDrawString 1 (-5) 0 0 [0x41, 0x3B, 0x2C, 0x22, 0x5C])) := by decide

theorem test_assembler_refuses :
    assembleLine "FB_PEEK 512".toList = .error .outOfRange
      ∧ assembleLine "FB_HALT".toList = .error .unknownMnemonic := by decide

/-! ### The hypotheses of the statements can be met -/

theorem witness_ready (words : List Word) (env : List EnvEvent) : (waiting words env).Ready := ⟨rfl, rfl, rfl⟩

theorem witness_round_trip :
    Instr.nop.wf = true ∧ (Instr.fbDrawString 255 (-128) (-32768) 32767 (List.replicate 255 0xFF)).wf = true := by
  decide +kernel

theorem witness_decoded :
    decode [0x23010002, 0x00000000, 0xFFFF4241, 0x00000000] = .ok (.fbDrawString 1 0 0 0 [0x41, 0x42], [0x00000000]) := by
  decide

theorem witness_lengths :
    decode [0x30000003, 0xFFFFFFFF, 0x00000000] = .ok (.dbSample 1 1 0xFFFFFFFF, [0x00000000])
      ∧ decode [0x23000000, 0x00000000] = .ok (.fbDrawString 0 0 0 0 [], [])
      ∧ decode [0x24000000] = .ok (.fbFlush, []) := by decide

/-- The longest string's LEN, and a TEXT word for its last character. -/
theorem witness_string_words :
    (0x230101FF : Word).toNat / 2 ^ 24 = 0x23
      ∧ (List.replicate 64 (0x41414141 : Word)).length = ((0x230101FF : Word).toNat % 256 + 3) / 4
      ∧ 254 < (0x230101FF : Word).toNat % 256 ∧ (List.replicate 64 (0x41414141 : Word))[254 / 4]? = some 0x41414141 := by
  decide

theorem witness_illegal :
    (waiting [0x32000000] []).Ready ∧ (waiting [0x32000000] []).env = []
      ∧ (waiting [0x32000000] []).port = 0x32000000 :: []
      ∧ (0x32000000 : Word).toNat / 2 ^ 24
        ∉ [0x00, 0x10, 0x11, 0x20, 0x21, 0x22, 0x23, 0x24, 0x25, 0x26, 0x30, 0x31] :=
  ⟨witness_ready _ _, rfl, rfl, by decide⟩

/-- One word with a reserved bit and one without, for the lowest and the highest reserved bit. -/
theorem witness_reserved :
    ((waiting [0x30000004] []).Ready ∧ (waiting [0x30000004] []).port = 0x30000004 :: [])
      ∧ (0x30000004 : Word).toNat / 2 ^ 24 = 0x30 ∧ (0x30000004 : Word) &&& 0x00FFFFFC ≠ 0
      ∧ (0x30800000 : Word) &&& 0x00FFFFFC ≠ 0 ∧ (0x30000003 : Word) &&& 0x00FFFFFC = 0
      ∧ (0x23FFFFFF : Word).toNat / 2 ^ 24 = 0x23 ∧ (0x23FFFFFF : Word) &&& 0x00000000 = 0 :=
  ⟨⟨witness_ready _ _, rfl⟩, by decide⟩

/-- Every clause of TONE_PLAY at the ends of its range. -/
theorem witness_frequencies :
    (0 : Half) = 0 ∧ 1 ≤ (1 : Half).toNat ∧ (19 : Half).toNat ≤ 19 ∧ 20 ≤ (20 : Half).toNat
      ∧ (20000 : Half).toNat ≤ 20000 ∧ 20001 ≤ (20001 : Half).toNat ∧ 20001 ≤ (65535 : Half).toNat := by decide

/-- Both parities of a period, at the example drive clock. -/
theorem witness_parities : periodWith 1000000 400 % 2 = 0 ∧ periodWith 1000000 520 % 2 = 1 := by decide

theorem witness_counter :
    State.reset.toneRun = false ∧ sounding.toneRun = true ∧ sounding.toneCnt.toNat < sounding.toneTop.toNat
      ∧ sounding.Ready ∧ sounding.env = [] ∧ sounding.port = []
      ∧ State.reset.Ready ∧ State.reset.env = [] ∧ State.reset.port = []
      ∧ ∃ t, step State.reset = .next t :=
  ⟨rfl, rfl, by decide, ⟨rfl, rfl, rfl⟩, rfl, rfl, ⟨rfl, rfl, rfl⟩, rfl, rfl, _, rfl⟩

theorem witness_inv : sounding.Inv where
  fbWf := by decide
  toneRuns := by decide
  noFault := by decide
  faulted := by decide
  cmdBuf := .inl rfl
  cmdBufLength := by decide
  flush := fun _ h => by cases h
  events := by decide

theorem witness_inv_step : ∃ t, step sounding = .next t := ⟨_, rfl⟩

/-- The last pixel, and the last bit of the last byte. -/
theorem witness_pixel :
    (0 : Int) ≤ 83 ∧ (83 : Int) < 84 ∧ (0 : Int) ≤ 47 ∧ (47 : Int) < 48 ∧ pixelByte 83 47 = 503
      ∧ pixelBit 47 = 7 := by decide

/-- A framebuffer in canonical form; a point just outside the grid on each side, and the last one inside. -/
theorem witness_set_pixel :
    Memory.wf [(0, 0x01), (503, 0x80)]
      ∧ ¬ ((84 : Half).toInt < 84) ∧ ¬ ((48 : Half).toInt < 48) ∧ ¬ (0 ≤ (-1 : Half).toInt)
      ∧ (0 ≤ (83 : Half).toInt ∧ (83 : Half).toInt < 84 ∧ 0 ≤ (47 : Half).toInt ∧ (47 : Half).toInt < 48) := by decide

/-- An unsupported character, and a byte that an unsupported character's points do not touch. -/
theorem witness_unsupported :
    font 0x25 = none ∧ ∀ p ∈ charPixels font 0x25 0 0 1, inGrid p.1 p.2 = true → pixelByte p.1 p.2 ≠ 0 :=
  ⟨rfl, fun p h => by
    have e : charPixels font 0x25 0 0 1 = [] := rfl
    rw [e] at h
    cases h⟩

/-- Each case in which a glyph writes nothing, at its boundary. -/
theorem witness_glyph_corners :
    (0 : Byte) = 0 ∧ font 0x00 = none ∧ 84 ≤ (84 : Half).toInt ∧ 48 ≤ (48 : Half).toInt
      ∧ (-5 : Half).toInt + 5 * ((1 : Byte).toNat : Int) ≤ 0 ∧ (-8 : Half).toInt + 8 * ((1 : Byte).toNat : Int) ≤ 0 :=
  ⟨rfl, rfl, by decide, by decide, by decide, by decide⟩

/-- A string's second character, before any 0x00, and a string whose points touch no byte. -/
theorem witness_string :
    ([0x25, 0x2E] : List Byte)[1]? = some 0x2E ∧ (0x00 : Byte) ∉ ([0x25, 0x2E] : List Byte).take 2
      ∧ stringPixels font 0 1 0 [0x25, 0x00, 0x41] 0 = [] := ⟨rfl, by decide, rfl⟩

theorem witness_drawing :
    drawsGlyphs (.fbDrawGlyph 0x41 1 0 0) = true ∧ drawsGlyphs (.fbDrawString 1 0 0 0 [0x41]) = true := by decide

/-- A transport that completes every call, one that stops at the last call of a flush, and one that just suffices. -/
theorem witness_flush :
    State.reset.acks = none ∧ Memory.wf State.reset.fb
      ∧ flushes .fbFlush { State.reset with acks := some 504 } []
      ∧ flushes .fbClear { State.reset with acks := some 505 } []
      ∧ ({ State.reset with acks := some 504 } : State).faulted = false ∧ 504 < 505 ∧ 505 ≤ 505 :=
  ⟨rfl, by decide, .inl ⟨rfl, rfl⟩, .inr ⟨rfl, rfl⟩, rfl, by decide, by decide⟩

/-- A block that waits for the last call of a flush: with no event, with its turn, and with a word the host writes. -/
theorem witness_waiting :
    ∀ env ∈ ([[], [.turn], [.write 0x00000000]] : List (List EnvEvent)),
      ({ waiting [0x11000000] env with flush := some 504, acks := some 0 } : State).waitsForTransport
        ∧ ({ waiting [0x11000000] env with flush := some 504, acks := some 0 } : State).env = env :=
  fun _ _ => ⟨⟨rfl, ⟨504, rfl⟩, rfl⟩, rfl⟩

/-- The first and the last call of a flush, each awaited, with each of the two events. -/
theorem witness_completion :
    ∀ k ∈ [0, 503, 504], ∀ a ∈ ([none, some 1] : List (Option Nat)),
      ({ waiting [] [.acks a] with flush := some k, acks := some 0 } : State).waitsForTransport
        ∧ ({ waiting [] [.acks a] with flush := some k, acks := some 0 } : State).env = [.acks a] ∧ k < 505 := by
  intro k hk a _
  have : k < 505 := by
    simp only [List.mem_cons, List.not_mem_nil, or_false] at hk
    omega
  exact ⟨⟨rfl, ⟨k, rfl⟩, rfl⟩, rfl, this⟩

/-- A supported character at the first and at the last place of a glyph on a band boundary inside the grid. -/
theorem witness_band :
    Memory.wf State.reset.fb ∧ (font 0x41).isSome = true
      ∧ (0 ≤ (0 : Half).toInt ∧ (0 : Half).toInt ≤ 79 ∧ (0 : Half).toInt ≤ 40 ∧ (0 : Half).toInt % 8 = 0)
      ∧ 0 ≤ (79 : Half).toInt ∧ (79 : Half).toInt ≤ 79
      ∧ 0 ≤ (40 : Half).toInt ∧ (40 : Half).toInt ≤ 40 ∧ (40 : Half).toInt % 8 = 0 := by
  decide

/-- A block that waits for the second word of two, with no event and with its turn. -/
theorem witness_words :
    ∀ env ∈ ([[], [.turn]] : List (List EnvEvent)),
      (waiting [0x30000003] env).waitsForWords ∧ (waiting [0x30000003] env).env = env :=
  fun _ _ => ⟨⟨rfl, rfl, rfl⟩, rfl⟩

/-- The two clauses of FB_PEEK where they meet, and the last index. -/
theorem witness_peek :
    (503 : BitVec 9).toNat < 504 ∧ 504 ≤ (504 : BitVec 9).toNat ∧ 504 ≤ (511 : BitVec 9).toNat := by decide

/-- Each case of Step_i: a press, a release, a hold and a button left alone. -/
theorem witness_sample :
    State.reset.btnA.pressed = false ∧ bothPressed.btnA.pressed = true ∧ State.reset.btnB.pressed = false
      ∧ bothPressed.btnB.pressed = true := by decide

/-- A release of each button with a tie. -/
theorem witness_release :
    (buttonOf .a bothPressed).pressed = true ∧ (buttonOf .b bothPressed).pressed = true
      ∧ ((nextOf (exec (sampleOf .a 1 0 1100) bothPressed)).map fun t => (buttonOf .a t).dur.toNat)
        = some (buttonOf .a bothPressed).thresh.toNat := by decide

/-- Two different buttons in the same state. -/
theorem witness_independent :
    buttonOf .a State.reset
      = buttonOf .b { State.reset with btnB := { State.reset.btnB with thresh := 1000 } } := rfl

theorem witness_hold : (buttonOf .a State.reset).pressed = false ∧ (buttonOf .b State.reset).pressed = false := by
  decide

theorem witness_not_sample :
    (∀ a b now, Instr.dbSetThresh .a 7 ≠ .dbSample a b now) ∧ (∀ a b now, Instr.nop ≠ .dbSample a b now)
      ∧ ∀ btn ms, Instr.nop ≠ .dbSetThresh btn ms :=
  ⟨nofun, nofun, nofun⟩

/-- The last mapped register and the first unmapped one. -/
theorem witness_read :
    (waiting [] [.read 0x0C]).env = .read 0x0C :: [] ∧ (0x0C : Byte).toNat ≤ 0x0C
      ∧ (waiting [] [.read 0x0D]).env = .read 0x0D :: [] ∧ 0x0D ≤ (0x0D : Byte).toNat := by decide

/-- The three words of the order of the checks, each at the port of a block that accepts commands. -/
theorem witness_priority :
    ∀ w ∈ ([0xFF000001, 0x10010005, 0x10000005] : List Word),
      (waiting [w] []).Ready ∧ (waiting [w] []).env = [] ∧ (waiting [w] []).port = w :: []
        ∧ (waiting [w] []).faultCause = 0 ∧ (waiting [w] []).faultWord = 0 :=
  fun _ _ => ⟨witness_ready _ _, rfl, rfl, rfl, rfl⟩

/-- Each fault a word 0 can raise, and a word that raises none. -/
theorem witness_word_zero :
    ([0xFF000001, 0x31020000, 0x10004E21, 0x260001F8, 0x10004E20] : List Word).map
        (fun w => (nextOf (step (waiting [w] []))).map fun t => t.faultCause)
      = [some 1, some 2, some 3, some 4, some 0] := by
  have h : ∀ w : Word, w = 0x10004E20 → (nextOf (step (waiting [w] []))).map (fun t => t.faultCause) = some 0 := by
    rintro w rfl
    rfl
  simp only [List.map_cons, List.map_nil, h _ rfl]
  rfl

/-- A fault in execution and a fault at decoding. -/
theorem witness_fault_entry :
    State.reset.faulted = false
      ∧ ((nextOf (exec (.tonePlay 20001) State.reset)).map fun t => t.faulted) = some true
      ∧ ((nextOf (exec (.fbPeek 511) State.reset)).map fun t => t.faulted) = some true
      ∧ ((nextOf (step (waiting [0x01000000] []))).map fun t => t.faulted) = some true := by decide

/-- A faulted block with no event, and one with an event that is no reset. -/
theorem witness_faulted :
    ({ State.reset with faulted := true, faultCause := 1 } : State).env = []
      ∧ (∃ t, step { waiting [0x00000000] [.turn] with faulted := true, faultCause := 1 } = .next t)
      ∧ (waiting [] [.turn]).env.head? ≠ some .reset := ⟨rfl, ⟨_, rfl⟩, by decide⟩

theorem witness_events :
    (waiting [] [.reset]).env = .reset :: [] ∧ (waiting [] [.turn]).env = .turn :: [] := ⟨rfl, rfl⟩

/-- A word that faults, one that opens a command and the one that ends it. -/
theorem witness_arrival :
    (waiting [] [.write 0xFF000001]).env = .write 0xFF000001 :: [] ∧ (waiting [] []).port = []
      ∧ decode ([] ++ [0xFF000001]) = .error .illegalOpcode ∧ decode ([] ++ [0x10010005]) = .error .reservedField
      ∧ decode ([] ++ [0x30000003]) = .error .incomplete
      ∧ decode ([0x30000003] ++ [0x000005DB]) = .ok (.dbSample 1 1 1499, []) :=
  ⟨rfl, rfl, by decide⟩

theorem witness_step_decoded :
    (waiting [0x310000C8, 0x00000000] []).Ready ∧ (waiting [0x310000C8, 0x00000000] []).env = []
      ∧ decode (waiting [0x310000C8, 0x00000000] []).port = .ok (.dbSetThresh .a 200, [0x00000000]) :=
  ⟨witness_ready _ _, rfl, by decide⟩

/-- One word of two, and 65 words of the longest command. -/
theorem witness_split :
    State.reset.Ready ∧ (Instr.dbSample 1 0 7).wf = true
      ∧ (waiting [0x30000001] []).port = (encode (.dbSample 1 0 7)).take 1 ∧ 0 < 1 ∧ 1 < (encode (.dbSample 1 0 7)).length
      ∧ 65 < (encode (.fbDrawString 1 0 0 0 (List.replicate 255 0x41))).length :=
  ⟨⟨rfl, rfl, rfl⟩, by decide⟩

/-- The ends of each operand's range, and the numbers just past them. -/
theorem witness_assembler :
    ∀ p ∈ ([(0, 65535), (-32768, 32767), (0, 255), (-128, 127), (0, 511), (0, 1), (0, 4294967295)] : List (Int × Int)),
      within p.1 p.2 p.1 ∧ within p.1 p.2 p.2 ∧ ¬ within p.1 p.2 (p.1 - 1) ∧ ¬ within p.1 p.2 (p.2 + 1) := by
  decide

/-- A string of 255 bytes fits and one of 256 does not. -/
theorem witness_string_length :
    (List.replicate 255 (0x41 : Byte)).length ≤ 255 ∧ ¬ (List.replicate 256 (0x41 : Byte)).length ≤ 255 := by
  simp only [List.length_replicate]
  decide

end Sys2Proof.Tests
end

section
/-! The register map (R21, R22), TONE_OUT (R27) and the values after reset (R39): the packed registers as
numbers, the drive line in each of its two states, and the three statements about them. -/
namespace Sys2Proof.Machine

/-- A 1-bit field of a register as a number (R9). -/
theorem toNat_bit (b : Bool) : (bit b).toNat = b.toNat := BitVec.toNat_ofBool b

/-- STATUS as a number (R22): the zero bits between FAULTED and FAULT_CAUSE put the cause at weight 16. -/
theorem statusWord_toNat (s : State) :
    (statusWord s).toNat = s.toneRun.toNat + 2 * s.faulted.toNat + 16 * s.faultCause.toNat := by
  simp only [statusWord, toNat_concat, toNat_bit, BitVec.toNat_ofNat]
  omega

theorem centerWord_toNat (s : State) :
    (centerWord s).toNat = 65536 * s.fbCenterX.toNat + s.fbCenterY.toNat := by
  simp only [centerWord, toNat_concat]
  omega

/-- DB_STATE as a number (R31): one bit a flag, A below B in each pair. -/
theorem dbStateWord_toNat (s : State) :
    (dbStateWord s).toNat = s.btnA.pressed.toNat + 2 * s.btnB.pressed.toNat
      + 4 * s.btnA.evt.toNat + 8 * s.btnB.evt.toNat + 16 * s.btnA.long.toNat + 32 * s.btnB.long.toNat := by
  simp only [dbStateWord, toNat_concat, toNat_bit, BitVec.toNat_ofNat]
  omega

/-- The numbers 0x0D to 0xFF have no register (R21). -/
theorem readReg_of_unmapped {s : State} {n : Byte} (h : 0x0D ≤ n.toNat) : readReg s n = none := by
  rcases readReg_cases s n with ⟨hmapped, _⟩ | ⟨_, hnone⟩
  · omega
  · exact hnone

/-- The drive line of a stopped generator is idle (R27). -/
@[simp] theorem toneOut_of_stopped {s : State} (h : s.toneRun = false) : toneOut s = Config.idleLevel := by
  simp [toneOut, h]

/-- The drive line of a running generator is high for the first TONE_HIGH cycles of a period (R27). -/
@[simp] theorem toneOut_of_running {s : State} (h : s.toneRun = true) :
    toneOut s = decide (s.toneCnt < s.toneHigh) := by
  simp [toneOut, h, BitVec.lt_def]

/-- The register values R39 lists: only the two thresholds are not 0. -/
theorem readReg_reset :
    ((List.range 13).map fun n => readReg State.reset (BitVec.ofNat 8 n))
      = [some 0, some 0, some 0, some 0, some 0, some 0, some 0, some 0, some 0, some 0, some 0x3E8, some 0x1F4,
         some 0] := by
  decide

/-- Settles O38: the whole registers are read as they stand, the packed ones by their values as numbers, the narrow
ones by widening, which keeps the number. -/
theorem registerMap : Obligations.RegisterMap := by
  intro s
  exact ⟨⟨_, rfl, statusWord_toNat s⟩, rfl, rfl,
    ⟨_, rfl, BitVec.toNat_setWidth_of_le (by decide)⟩,
    ⟨_, rfl, centerWord_toNat s⟩, ⟨_, rfl, dbStateWord_toNat s⟩, rfl, rfl, rfl, rfl,
    ⟨_, rfl, BitVec.toNat_setWidth_of_le (by decide)⟩, ⟨_, rfl, BitVec.toNat_setWidth_of_le (by decide)⟩, rfl,
    fun _ => readReg_of_unmapped⟩

/-- Settles O13, by whether the generator runs; after reset it is stopped. -/
theorem toneOutLevel : Obligations.ToneOutLevel := by
  refine ⟨fun s => ?_, toneOut_of_stopped rfl⟩
  cases h : s.toneRun with
  | false => simp [h]
  | true => simp [h]

/-- Settles O44: the fields as `State.reset` sets them, the empty framebuffer by `Memory.read_nil`, and the registers
by `readReg_reset`. -/
theorem resetValues : Obligations.ResetValues :=
  ⟨⟨rfl, rfl, rfl, rfl, toneOut_of_stopped rfl, Memory.read_nil, rfl, rfl, rfl, rfl, rfl, rfl, rfl, rfl, rfl, rfl⟩,
    readReg_reset⟩

end Sys2Proof.Machine
end

section
/-! Which bit of which framebuffer byte holds a pixel (R41), the supported characters (R46), and a glyph at scale 1
on a band boundary (R45): where its points lie in the framebuffer, byte by byte and bit by bit. -/
namespace Sys2Proof.Machine

/-- The bit that an in-grid pixel reads (R41, R43). -/
theorem pixel_of_inGrid {x y : Int} (h : inGrid x y = true) (m : Memory) :
    pixel m x y = (Memory.read m (pixelByte x y)).getLsbD (pixelBit y) := by
  simp [pixel, h]

/-- Every bit of the 504 bytes is the bit of a pixel of the grid (R41). -/
theorem exists_pixel_at {a k : Nat} (ha : a < 504) (hk : k < 8) :
    ∃ x y : Int, inGrid x y = true ∧ pixelByte x y = a ∧ pixelBit y = k := by
  refine ⟨(a % 84 : Nat), (a / 84 * 8 + k : Nat), ?_, ?_, ?_⟩
  · rw [inGrid_iff]
    omega
  · show (((a % 84 : Nat) : Int) + ((a / 84 * 8 + k : Nat) : Int) / 8 * 84).toNat = a
    omega
  · rw [pixelBit]
    omega

/-- Settles O16: each bit has a pixel by `exists_pixel_at`, and only one by `pixel_place_inj`. -/
theorem pixelLayout : Obligations.PixelLayout := by
  refine ⟨fun m x y hx hx' hy hy' => pixel_of_inGrid ((inGrid_iff x y).2 ⟨⟨hx, hx'⟩, hy, hy'⟩) m, ?_⟩
  intro a k ha hk
  obtain ⟨x, y, hgrid, hbyte, hbit⟩ := exists_pixel_at ha hk
  refine ⟨(x, y), ⟨?_, hbyte, hbit⟩, ?_⟩
  · simpa [inGrid_iff, and_assoc] using hgrid
  · rintro ⟨u, v⟩ ⟨⟨hu, hu', hv, hv'⟩, hbyte', hbit'⟩
    have huv : inGrid u v = true := (inGrid_iff u v).2 ⟨⟨hu, hu'⟩, hv, hv'⟩
    obtain ⟨rfl, rfl⟩ := pixel_place_inj huv hgrid (hbyte'.trans hbyte.symm) (hbit'.trans hbit.symm)
    rfl

/-- Font gives a glyph exactly where the table of characters says so (R44, R46). -/
@[simp] theorem font_isSome (c : Byte) : (font c).isSome = supported c := by
  cases h : supported c <;> simp [font, fontWith, h]

/-- The glyph of a supported character is its own in P_FONT (R44). -/
theorem font_of_supported {c : Byte} (h : supported c = true) : font c = some (Config.fontGlyph c) := by
  simp [font, fontWith, h]

/-- The supported characters by their ranges (R46). -/
theorem supported_iff (c : Byte) :
    supported c = true ↔ (0x30 ≤ c.toNat ∧ c.toNat ≤ 0x3A) ∨ (0x41 ≤ c.toNat ∧ c.toNat ≤ 0x5A)
      ∨ (0x61 ≤ c.toNat ∧ c.toNat ≤ 0x7A) ∨ c.toNat = 0x20 ∨ c.toNat = 0x2E ∨ c.toNat = 0x21 := by
  simp [supported, or_assoc]

/-- Settles O19: which bytes have a glyph by `font_isSome` and `supported_iff`, how many by counting the 256 bytes. -/
theorem supportedCharacters : Obligations.SupportedCharacters := by
  refine ⟨fun c => ?_, ?_⟩
  · rw [font_isSome, Bool.eq_iff_iff, decide_eq_true_iff]
    exact supported_iff c
  · simp only [font_isSome]
    decide

/-- `g(col, row)` is bit `row` of column byte `col` (R45). -/
theorem glyphBit_eq (g : Glyph) {col : Nat} (hcol : col < 5) (row : Nat) :
    glyphBit g col row = g[col].getLsbD row := by
  simp [glyphBit, hcol]

/-- At scale 1 a set glyph bit is the one point at its column and row (R93). -/
theorem mem_glyphPixels_scale_one (g : Glyph) (x y u v : Int) :
    (u, v) ∈ glyphPixels g x y 1 ↔
      ∃ col < 5, ∃ row < 8, glyphBit g col row = true ∧ u = x + (col : Int) ∧ v = y + (row : Int) := by
  simp [mem_glyphPixels]

/-- Below a band boundary the eight rows of a column lie in one byte, and the columns in consecutive bytes (R41). -/
theorem pixelByte_band {x y : Int} (hx : 0 ≤ x) (hy : 0 ≤ y) (hband : y % 8 = 0) (col : Nat) {row : Nat}
    (hrow : row < 8) : pixelByte (x + (col : Int)) (y + (row : Int)) = (x + y / 8 * 84).toNat + col := by
  show (x + (col : Int) + (y + (row : Int)) / 8 * 84).toNat = _
  omega

theorem pixelBit_band {y : Int} (hband : y % 8 = 0) {row : Nat} (hrow : row < 8) :
    pixelBit (y + (row : Int)) = row := by
  rw [pixelBit]
  omega

/-- One bit of the byte of an in-grid point after painting: set when it was set or its point is painted (R93). -/
theorem getLsbD_read_paint {m : Memory} (hm : Memory.sorted m) {u v : Int} (h : inGrid u v = true)
    (ps : List (Int × Int)) :
    (Memory.read (paint ps m) (pixelByte u v)).getLsbD (pixelBit v)
      = ((Memory.read m (pixelByte u v)).getLsbD (pixelBit v) || decide ((u, v) ∈ ps)) := by
  rw [← pixel_of_inGrid h, ← pixel_of_inGrid h, pixel_paint ps hm, h, Bool.true_and]

/-- A glyph at scale 1 on a band boundary ORs each column byte into the byte of that column (R45). -/
theorem read_paint_glyph_band {m : Memory} (hm : Memory.sorted m) (g : Glyph) {x y : Int} (hx : 0 ≤ x) (hx' : x ≤ 79)
    (hy : 0 ≤ y) (hy' : y ≤ 40) (hband : y % 8 = 0) {col : Nat} (hcol : col < 5) :
    Memory.read (paint (glyphPixels g x y 1) m) ((x + y / 8 * 84).toNat + col)
      = Memory.read m ((x + y / 8 * 84).toNat + col) ||| g[col] := by
  apply BitVec.eq_of_getLsbD_eq
  intro row hrow
  have hgrid : inGrid (x + (col : Int)) (y + (row : Int)) = true := by
    rw [inGrid_iff]
    omega
  have hmem : (x + (col : Int), y + (row : Int)) ∈ glyphPixels g x y 1 ↔ g[col].getLsbD row = true := by
    rw [mem_glyphPixels_scale_one, ← glyphBit_eq g hcol]
    constructor
    · rintro ⟨col', -, row', -, hbit, hu, hv⟩
      obtain rfl : col = col' := by omega
      obtain rfl : row = row' := by omega
      exact hbit
    · exact fun hbit => ⟨col, hcol, row, hrow, hbit, rfl, rfl⟩
  have hpaint := getLsbD_read_paint hm hgrid (glyphPixels g x y 1)
  rw [pixelByte_band hx hy hband col hrow, pixelBit_band hband hrow] at hpaint
  rw [hpaint, BitVec.getLsbD_or]
  simp [hmem]

/-- A glyph at scale 1 on a band boundary touches only the five bytes of its columns (R45). -/
theorem read_paint_glyph_band_outside {m : Memory} (hm : Memory.sorted m) (g : Glyph) {x y : Int} (hx : 0 ≤ x)
    (hy : 0 ≤ y) (hband : y % 8 = 0) {a : Nat}
    (ha : a < (x + y / 8 * 84).toNat ∨ (x + y / 8 * 84).toNat + 5 ≤ a) :
    Memory.read (paint (glyphPixels g x y 1) m) a = Memory.read m a := by
  refine read_paint_untouched _ hm a ?_
  rintro ⟨u, v⟩ huv -
  obtain ⟨col, hcol, row, hrow, -, rfl, rfl⟩ := (mem_glyphPixels_scale_one g x y u v).1 huv
  rw [pixelByte_band hx hy hband col hrow]
  omega

theorem exec_fbDrawGlyph (ch scale : Byte) (x y : Half) (s : State) :
    exec (.fbDrawGlyph ch scale x y) s
      = .next { s with fb := paint (charPixels font ch x.toInt y.toInt scale.toNat) s.fb } := rfl

/-- FB_DRAW_GLYPH of a supported character paints the points of its own glyph (R93, R94). -/
theorem exec_fbDrawGlyph_of_supported {ch : Byte} (h : supported ch = true) (scale : Byte) (x y : Half) (s : State) :
    exec (.fbDrawGlyph ch scale x y) s
      = .next { s with fb := paint (glyphPixels (Config.fontGlyph ch) x.toInt y.toInt scale.toNat) s.fb } := by
  rw [exec_fbDrawGlyph, charPixels, font_of_supported h]

/-- Settles O59: the five bytes of the glyph by `read_paint_glyph_band`, every other one by
`read_paint_glyph_band_outside`. -/
theorem glyphCopiesColumns : Obligations.GlyphCopiesColumns := by
  refine ⟨fun g _ row hcol => glyphBit_eq g hcol row, ?_⟩
  intro ch x y s hwf hsome hx hx' hy hy' hband
  rw [font_isSome] at hsome
  exact ⟨_, exec_fbDrawGlyph_of_supported hsome 1 x y s,
    fun _ hcol => read_paint_glyph_band hwf.1 _ hx hx' hy hy' hband hcol,
    fun _ ha => read_paint_glyph_band_outside hwf.1 _ hx hy hband ha⟩

end Sys2Proof.Machine
end

section
/-! How the words of a command are read (R63, R68), how word 0 is checked (R70, R71), and the pseudo-instructions
(R74): what the decoder answers from the opcode byte and the reserved bits, how many extension words a format takes,
which byte a character of a string is, and the step of a block that meets a bad word 0. -/
namespace Sys2Proof

theorem checkWord0_of_code {o : Opcode} {w : Word} (h : w.toNat / 2 ^ 24 = o.code) :
    checkWord0 w = if w &&& o.reservedMask = 0 then .ok o else .error .reservedField := by
  simp only [checkWord0, (ofByte_opcodeByte_iff w o).2 h]

/-- A word 0 with a legal opcode and clear reserved bits is read by its opcode's format (R71). -/
theorem decode_of_reserved_zero {o : Opcode} {w : Word} (h : w.toNat / 2 ^ 24 = o.code)
    (hzero : w &&& o.reservedMask = 0) (ext : List Word) : decode (w :: ext) = decodeFields o w ext := by
  simp only [decode, checkWord0_of_code h, if_pos hzero]

/-- A reserved bit at 1 is refused whatever words follow (R71), one mask an opcode. -/
theorem reservedRefused_code (o : Opcode) : Machine.reservedRefused o.code o.reservedMask := by
  intro w ext h hbits
  simp only [decode, checkWord0_of_code h, if_neg hbits]

/-- An opcode byte of no command is refused whatever words follow (R70). -/
theorem decode_of_illegal {w : Word} (h : ∀ o : Opcode, w.toNat / 2 ^ 24 ≠ o.code) (ext : List Word) :
    decode (w :: ext) = .error .illegalOpcode := by
  have hnone : Opcode.ofByte (opcodeByte w) = none := by
    rw [Option.eq_none_iff_forall_ne_some]
    exact fun o ho => h o ((ofByte_opcodeByte_iff w o).1 ho)
  simp [decode, checkWord0, hnone]

/-- The answer a format with `n` extension words gives: the command and the words after them, or that words are still
to come (R56, R68). -/
def takesWords (n : Nat) (ext : List Word) (r : Except Reject (Instr × List Word)) : Prop :=
  (ext.length < n ∧ r = .error .incomplete) ∨ (n ≤ ext.length ∧ ∃ i, r = .ok (i, ext.drop n))

theorem takesWords_oneWord (i : Instr) (ext : List Word) : takesWords 0 ext (oneWord i ext) :=
  .inr ⟨Nat.zero_le _, i, rfl⟩

theorem takesWords_twoWords (f : Word → Instr) (ext : List Word) : takesWords 1 ext (twoWords f ext) := by
  cases ext with
  | nil => exact .inl ⟨Nat.one_pos, rfl⟩
  | cons w rest => exact .inr ⟨Nat.le_add_left 1 _, f w, rfl⟩

theorem takesWords_stringWords (w0 : Word) (ext : List Word) :
    takesWords (1 + textWordCount (field w0 0 8).toNat) ext (stringWords w0 ext) := by
  cases ext with
  | nil => exact .inl ⟨by simp, rfl⟩
  | cons xy more =>
    rw [takesWords, Nat.add_comm 1, List.length_cons]
    by_cases h : more.length < textWordCount (field w0 0 8).toNat
    · exact .inl ⟨by omega, by simp [stringWords, h]⟩
    · exact .inr ⟨by omega, _, if_neg h⟩

/-- Every format takes the extension words of R68's table, and is never refused (R71). -/
theorem takesWords_decodeFields (o : Opcode) (w0 : Word) (ext : List Word) :
    takesWords (o.extWords w0) ext (decodeFields o w0 ext) := by
  cases o with
  | fbSetPixel | fbDrawGlyph | fbCenter | dbSample => exact takesWords_twoWords _ ext
  | fbDrawString => exact takesWords_stringWords w0 ext
  | _ => exact takesWords_oneWord _ ext

theorem takesWords_ok {n : Nat} {ext rest : List Word} {i : Instr} (h : takesWords n ext (.ok (i, rest))) :
    ext.length = n + rest.length := by
  rcases h with ⟨-, he⟩ | ⟨hn, j, he⟩
  · cases he
  · cases he
    simp only [List.length_drop]
    omega

/-- R68's table by the number of the opcode. -/
theorem extWords_eq (o : Opcode) (w0 : Word) :
    o.extWords w0 = if o.code ∈ [0x21, 0x22, 0x25, 0x30] then 1
      else if o.code = 0x23 then 1 + (w0.toNat % 256 + 3) / 4 else 0 := by
  cases o <;> simp [Opcode.extWords, Opcode.code, textWordCount, field_toNat]

/-- Settles O4: the words taken by `takesWords_decodeFields`, their number by R68's table. -/
theorem commandLengths : Obligations.CommandLengths := by
  intro w0 ext rest i h
  obtain ⟨o, hcode, -, hfields⟩ := decode_cons_ok h
  have hlen : ext.length = o.extWords w0 + rest.length := by
    have htakes := takesWords_decodeFields o w0 ext
    rw [hfields] at htakes
    exact takesWords_ok htakes
  rw [hcode, ← extWords_eq]
  omega

/-- Character `k` is byte `k mod 4` of TEXT word `k div 4` (R63). -/
theorem getElem?_unpackText {ws : List Word} {k : Nat} {w : Word} (h : ws[k / 4]? = some w) :
    (unpackText ws)[k]? = some (field w (8 * (k % 4)) 8) := by
  induction ws generalizing k with
  | nil => simp at h
  | cons v ws ih =>
    rw [unpackText]
    by_cases hk : k < 4
    · have hv : v = w := by simpa [Nat.div_eq_of_lt hk] using h
      subst hv
      rw [List.getElem?_append_left hk]
      interval_cases k <;> rfl
    · obtain ⟨j, rfl⟩ : ∃ j, k = j + 4 := ⟨k - 4, by omega⟩
      rw [List.getElem?_append_right (Nat.le_add_left 4 j)]
      rw [Nat.add_div_right j (by decide), List.getElem?_cons_succ] at h
      simpa [textBytes] using ih h

/-- The TEXT words that LEN asks for are all taken, and the words after them left (R63). -/
theorem stringWords_append {w0 : Word} {tw : List Word} (h : tw.length = textWordCount (field w0 0 8).toNat)
    (xy : Word) (rest : List Word) :
    stringWords w0 (xy :: (tw ++ rest))
      = .ok (.fbDrawString (field w0 16 8) (field w0 8 8) (field xy 16 16) (field xy 0 16)
          ((unpackText tw).take (field w0 0 8).toNat), rest) := by
  simp [stringWords, ← h]

/-- Settles O5: the fields as numbers by `field_toNat`, the characters by `getElem?_unpackText`. -/
theorem stringWordsDecode : Obligations.StringWordsDecode := by
  intro w0 xy tw rest hcode htw
  have hlen : (field w0 0 8).toNat = w0.toNat % 256 := by simp [field_toNat]
  have hcount : tw.length = textWordCount (field w0 0 8).toNat := by rw [hlen, htw, textWordCount]
  refine ⟨_, _, _, _, _,
    (decode_cons (o := .fbDrawString) _ hcode (Nat.mod_one _)).trans (stringWords_append hcount xy rest),
    field_toNat .., field_toNat .., ?_, ?_, ?_, ?_⟩
  · rw [field_toNat]
    have := xy.isLt
    omega
  · rw [field_toNat]
    omega
  · rw [List.length_take, length_unpackText, hlen, htw]
    omega
  · intro k w hk hw
    refine ⟨field w (8 * (k % 4)) 8, ?_, field_toNat ..⟩
    rw [hlen, List.getElem?_take_of_lt hk, getElem?_unpackText hw]

namespace Machine

theorem takeCommand_of_illegalOpcode {s : State} (h : decode (pendingWords s) = .error .illegalOpcode) :
    takeCommand s = .next (faultWord0 .illegalOpcode s) := by
  simp only [takeCommand, h]

theorem takeCommand_of_reservedField {s : State} (h : decode (pendingWords s) = .error .reservedField) :
    takeCommand s = .next (faultWord0 .reservedField s) := by
  simp only [takeCommand, h]

/-- A fault at word 0 of a block that accepts commands takes that word alone (R56, R131). -/
theorem faultWord0_of_ready {s : State} {w : Word} {rest : List Word} (h : s.Ready) (hp : s.port = w :: rest)
    (c : Cause) :
    faultWord0 c (elapse s) = { elapse s with
      port := rest, faulted := true, faultCause := causeCode c, faultWord := w, cmdBuf := [] } := by
  rw [faultWord0, pendingWords_of_ready h, hp]
  rfl

/-- Settles O6: no opcode has the byte, so the decoder refuses the word by `decode_of_illegal`. -/
theorem illegalOpcodeFaults : Obligations.IllegalOpcodeFaults := by
  intro s w rest hready henv hport hbyte
  have hillegal : decode (pendingWords (elapse s)) = .error .illegalOpcode := by
    rw [pendingWords_of_ready hready, hport]
    refine decode_of_illegal (fun o ho => hbyte ?_) rest
    rw [ho]
    cases o <;> decide
  rw [step_of_ready hready henv, takeCommand_of_illegalOpcode hillegal, faultWord0_of_ready hready hport]
  rfl

/-- Settles O7: each row is one opcode's; with a reserved bit at 1 by `reservedRefused_code`, else by the format. -/
theorem reservedFieldFaults : Obligations.ReservedFieldFaults := by
  intro p hp s w rest hready henv hport hbyte
  have hrow : p ∈ ([.nop, .tonePlay, .toneStop, .fbClear, .fbSetPixel, .fbDrawGlyph, .fbDrawString, .fbFlush,
    .fbCenter, .fbPeek, .dbSample, .dbSetThresh] : List Opcode).map fun o => (o.code, o.reservedMask) := hp
  obtain ⟨o, -, rfl⟩ := List.mem_map.1 hrow
  refine ⟨fun hbits => ?_, fun hzero ext => ?_⟩
  · have hreserved : decode (pendingWords (elapse s)) = .error .reservedField := by
      rw [pendingWords_of_ready hready, hport]
      exact reservedRefused_code o w rest hbyte hbits
    rw [step_of_ready hready henv, takeCommand_of_reservedField hreserved, faultWord0_of_ready hready hport]
    rfl
  · rw [decode_of_reserved_zero hbyte hzero]
    rcases takesWords_decodeFields o w ext with ⟨-, he⟩ | ⟨-, i, he⟩
    · exact .inl he
    · exact .inr ⟨i, _, he⟩

/-- Settles O55: each mnemonic and its expansion run the same operand checks; 0 passes that of TONE_PLAY. -/
theorem pseudoInstructions : Obligations.PseudoInstructions :=
  fun _ _ _ => ⟨rfl, rfl, rfl, rfl, rfl⟩

end Machine
end Sys2Proof
end

section
/-! The TONE commands (R76 to R78): FREQ 0 and TONE_STOP, the silent line, and the three statements about them. -/
namespace Sys2Proof.Machine

theorem exec_toneStop (s : State) : exec .toneStop s = .next (toneStopCall s) := rfl

/-- Frequency 0 is SetDuty(0) alone, before any range check (R77). -/
theorem execTonePlay_zero (s : State) : execTonePlay 0 s = .next (toneSetDuty 0 s) := rfl

/-- With TONE_HIGH at 0 the drive line is low, running or stopped (R27, R77). -/
theorem toneOut_of_silent {s : State} (h : s.toneHigh = 0) : toneOut s = false := by
  cases hrun : s.toneRun with
  | false => exact toneOut_of_stopped hrun
  | true => simp [toneOut_of_running hrun, h, BitVec.lt_def]

/-- Settles O10: the line is idle by `toneOut_of_stopped`, as Stop clears TONE_RUN. -/
theorem toneStop : Obligations.ToneStop := by
  intro s
  refine ⟨rfl, reservedRefused_code .toneStop, exec_toneStop s, ?_⟩
  intro t ht
  rw [exec_toneStop] at ht
  cases ht
  exact toneOut_of_stopped rfl

/-- Settles O8: one range of FREQ a clause, by the equation of `execTonePlay` there; silence outlasts every number of
cycles because they leave TONE_HIGH alone. -/
theorem tonePlay : Obligations.TonePlay := by
  intro freq s
  refine ⟨rfl, reservedRefused_code .tonePlay, ?silence, ?range, ?legal⟩
  case silence =>
    rintro rfl
    exact ⟨execTonePlay_zero s, fun n => toneOut_of_silent (cycles_toneHigh n _)⟩
  case range =>
    intro hrange
    exact execTonePlay_range (by omega) (by omega) s
  case legal =>
    rintro ⟨hmin, hmax⟩
    exact execTonePlay_legal hmin hmax s

/-- Settles O9: the period is within a register by `period_bounds`, so by `toneRestart_toNat` nothing is cut. -/
theorem tonePeriodFits : Obligations.TonePeriodFits := by
  intro freq s hmin hmax
  obtain ⟨hlow, hhigh⟩ : 2 ≤ Config.driveClkHz / freq.toNat ∧ Config.driveClkHz / freq.toNat < 2 ^ 32 :=
    period_bounds hmin hmax
  obtain ⟨htop, hduty⟩ := toneRestart_toNat hhigh s
  exact ⟨_, execTonePlay_legal hmin hmax s, htop, hduty, rfl, hlow, Nat.le_pred_of_lt hhigh,
    Nat.div_pos hlow (by decide)⟩

end Sys2Proof.Machine
end

section
/-! The FB commands (R90 to R102): one bit after SetPixel (R91), which points DrawGlyph and DrawString paint (R93, R95),
the characters in the TEXT words (R63), the calls of a flush (R97) and the centered origin (R100). -/
namespace Sys2Proof.Machine

theorem exec_fbSetPixel (color : BitVec 1) (x y : Half) (s : State) :
    exec (.fbSetPixel color x y) s = .next { s with fb := setPixel x.toInt y.toInt (colorOf color) s.fb } := rfl

theorem exec_fbDrawString (scale spacing : Byte) (x y : Half) (text : List Byte) (s : State) :
    exec (.fbDrawString scale spacing x y text) s
      = .next { s with
          fb := paint (stringPixels font y.toInt scale.toNat spacing.toInt text x.toInt) s.fb } := rfl

/-- COLOR 1 sets the pixel and 0 clears it (R43, R60). -/
theorem colorOf_eq (color : BitVec 1) : colorOf color = decide (color = 1) := beq_eq_decide color 1

/-- One bit after SetPixel inside the grid: the pixel's own has the color, every other one is as before (R91). -/
theorem getLsbD_read_setPixel {m : Memory} (hm : Memory.sorted m) {x y : Int} (h : inGrid x y = true) (c : Bool)
    (a : Nat) {k : Nat} (hk : k < 8) :
    (Memory.read (setPixel x y c m) a).getLsbD k
      = if a = pixelByte x y ∧ k = pixelBit y then c else (Memory.read m a).getLsbD k := by
  rw [read_setPixel hm h]
  by_cases ha : a = pixelByte x y
  · simp [ha, getLsbD_putBit _ _ (pixelBit_lt y) c k hk]
  · simp [ha]

/-- Settles O17: outside the grid by `setPixel_outside`, inside it bit by bit by `getLsbD_read_setPixel`. -/
theorem setPixelWritesOneBit : Obligations.SetPixelWritesOneBit := by
  intro color x y s hwf
  refine ⟨_, exec_fbSetPixel color x y s, setPixel_wf hwf _ _ _, fun hout => ?_, fun hin a k hk => ?_⟩
  · refine setPixel_outside ?_ _ _
    rw [← Bool.not_eq_true, inGrid_iff]
    omega
  · have hgrid : inGrid x.toInt y.toInt = true := by
      rw [inGrid_iff]
      omega
    rw [getLsbD_read_setPixel hwf.1 hgrid _ _ hk, colorOf_eq]
    rfl

/-- Settles O18: the pixel written and every other one by `pixel_setPixel`. -/
theorem setPixelCommand : Obligations.SetPixelCommand := by
  intro color x y s hwf
  refine ⟨rfl, reservedRefused_code .fbSetPixel, _, exec_fbSetPixel color x y s, ?_⟩
  intro u v hu hu' hv hv'
  rw [pixel_setPixel hwf.1, colorOf_eq]
  refine if_congr ⟨And.right, fun huv => ⟨?_, huv⟩⟩ rfl rfl
  rw [← huv.1, ← huv.2, inGrid_iff]
  exact ⟨⟨hu, hu'⟩, hv, hv'⟩

/-- A pixel of the grid after painting is set when it was set or is one of the points (R93). -/
theorem pixel_paint_iff {m : Memory} (hm : Memory.sorted m) (ps : List (Int × Int)) {u v : Int}
    (h : inGrid u v = true) :
    pixel (paint ps m) u v = true ↔ pixel m u v = true ∨ (u, v) ∈ ps := by
  simp [pixel_paint ps hm, h]

/-- The point lies in the `s` by `s` block of a set bit of the glyph, drawn with its corner at `(x, y)` (R45, R93). -/
def glyphCovers (g : Glyph) (x y : Int) (s : Nat) (u v : Int) : Prop :=
  ∃ (col row : Nat) (_ : col < 5), row < 8 ∧ g[col].getLsbD row = true
    ∧ ∃ dx dy : Nat, dx < s ∧ dy < s ∧ u = x + col * s + dx ∧ v = y + row * s + dy

theorem mem_glyphPixels_iff_covers (g : Glyph) (x y : Int) (s : Nat) (u v : Int) :
    (u, v) ∈ glyphPixels g x y s ↔ glyphCovers g x y s u v := by
  rw [mem_glyphPixels]
  constructor
  · rintro ⟨col, hcol, row, hrow, hbit, dx, hdx, dy, hdy, hu, hv⟩
    rw [glyphBit_eq g hcol] at hbit
    exact ⟨col, row, hcol, hrow, hbit, dx, dy, hdx, hdy, by simpa using hu, by simpa using hv⟩
  · rintro ⟨col, row, hcol, hrow, hbit, dx, dy, hdx, hdy, hu, hv⟩
    rw [← glyphBit_eq g hcol] at hbit
    exact ⟨col, hcol, row, hrow, hbit, dx, hdx, dy, hdy, by simpa using hu, by simpa using hv⟩

/-- The points of a character are those of its own glyph, and none without one (R93). -/
theorem mem_charPixels (ch : Byte) (x y : Int) (s : Nat) (u v : Int) :
    (u, v) ∈ charPixels font ch x y s ↔
      font ch = some (Config.fontGlyph ch) ∧ glyphCovers (Config.fontGlyph ch) x y s u v := by
  cases h : supported ch with
  | false => simp [charPixels, font, fontWith, h]
  | true => simp [charPixels, font_of_supported h, mem_glyphPixels_iff_covers]

/-- An unsupported character has no points (R93). -/
theorem charPixels_of_font_none {ch : Byte} (h : font ch = none) (x y : Int) (s : Nat) :
    charPixels font ch x y s = [] := by
  rw [charPixels, h]

/-- Settles O20: the painted points by `mem_charPixels`, the other bytes by `read_paint_untouched`. -/
theorem drawGlyphPaints : Obligations.DrawGlyphPaints := by
  intro ch scale x y s hwf
  refine ⟨rfl, reservedRefused_code .fbDrawGlyph, _, exec_fbDrawGlyph ch scale x y s, paint_wf _ hwf,
    fun hnone => ?_, fun u v hu hu' hv hv' => ?_, fun a => read_paint_untouched _ hwf.1 a⟩
  · rw [charPixels_of_font_none hnone]
    rfl
  · rw [pixel_paint_iff hwf.1 _ ((inGrid_iff u v).2 ⟨⟨hu, hu'⟩, hv, hv'⟩), mem_charPixels]
    rfl

/-- The points of a string: those of every character before the first 0x00, character `k` standing `k` advances after
the first one (R95). -/
theorem mem_stringPixels (fnt : Byte → Option Glyph) (y : Int) (s : Nat) (sp : Int) (text : List Byte) (cx : Int)
    (p : Int × Int) :
    p ∈ stringPixels fnt y s sp text cx ↔
      ∃ (k : Nat) (ch : Byte), text[k]? = some ch ∧ (0x00 : Byte) ∉ text.take (k + 1)
        ∧ p ∈ charPixels fnt ch (cx + k * (5 * s + sp)) y s := by
  induction text generalizing cx with
  | nil => simp [stringPixels]
  | cons c text ih =>
    have hadvance (k : Nat) : cx + ((Config.glyphW * s : Nat) : Int) + sp + k * (5 * s + sp)
        = cx + ((k + 1 : Nat) : Int) * (5 * s + sp) := by
      push_cast
      ring
    rw [stringPixels]
    split
    · rename_i hc
      simp [hc]
    · rename_i hc
      have hc' : ¬ 0#8 = c := fun h => hc h.symm
      rw [List.mem_append, ih]
      refine Iff.trans ?_ Nat.or_exists_add_one
      refine or_congr ?first (exists_congr fun k => exists_congr fun ch => ?later)
      case first => simp [hc']
      case later =>
        rw [hadvance]
        simp [hc']

/-- Character `k` of a string is byte `k mod 4` of TEXT word `k div 4` of its encoding (R63). -/
theorem getElem?_packText {text : List Byte} {k : Nat} {ch : Byte} (h : text[k]? = some ch) :
    ∃ w : Word, (packText text)[k / 4]? = some w ∧ ch = field w (8 * (k % 4)) 8 := by
  obtain ⟨hk, -⟩ := List.getElem?_eq_some_iff.1 h
  have hword : k / 4 < (packText text).length := by
    rw [length_packText, textWordCount]
    omega
  refine ⟨_, List.getElem?_eq_getElem hword, ?_⟩
  rw [← unpack_packText text, List.getElem?_take_of_lt hk,
    getElem?_unpackText (List.getElem?_eq_getElem hword)] at h
  exact (Option.some.inj h).symm

/-- Settles O22: the TEXT words by `getElem?_packText`, the painted points by `mem_stringPixels` and
`mem_charPixels`. -/
theorem drawStringPaints : Obligations.DrawStringPaints := by
  intro scale spacing x y text s hwf
  refine ⟨⟨packText text, rfl, length_packText text, fun k ch hch => ?_⟩, _,
    exec_fbDrawString scale spacing x y text s, paint_wf _ hwf, fun u v hu hu' hv hv' => ?_,
    fun a => read_paint_untouched _ hwf.1 a⟩
  · obtain ⟨w, hw, rfl⟩ := getElem?_packText hch
    exact ⟨w, hw, field_toNat ..⟩
  · rw [pixel_paint_iff hwf.1 _ ((inGrid_iff u v).2 ⟨⟨hu, hu'⟩, hv, hv'⟩), mem_stringPixels]
    simp only [mem_charPixels]
    rfl

/-- The 505 calls of a flush as collaborator calls (R97). -/
theorem map_disp_flushCalls (m : Memory) :
    (flushCalls m).map Call.disp
      = .disp (.setCursor 0 0) :: (List.range 504).map fun i => .disp (.data (Memory.read m i)) := by
  rw [flushCalls, List.map_cons, List.map_map]
  rfl

/-- The calls of a flush of the empty framebuffer: every byte is 0x00 (R28, R97). -/
theorem map_disp_flushCalls_nil :
    (flushCalls []).map Call.disp = .disp (.setCursor 0 0) :: List.replicate 504 (.disp (.data 0x00)) := by
  simp only [map_disp_flushCalls, Memory.read_nil, List.map_const', List.length_range]

/-- With a transport that completes every call the calls of a flush follow those made before (R97). -/
theorem trace_startFlush_prompt {s : State} (h : s.acks = none) :
    trace (startFlush s) = trace s ++ (flushCalls s.fb).map Call.disp := by
  simp [trace, startFlush_prompt s h]

/-- With a transport that completes every call a flush changes nothing but the calls, and nothing is awaited. -/
theorem startFlush_prompt_frame {s : State} (h : s.acks = none) :
    startFlush s = { s with calls := (startFlush s).calls, flush := none } := by
  rw [startFlush_prompt s h]

/-- Settles O24: the second flush finds the same bytes and the same transport, so it makes the same calls. -/
theorem flushSendsEveryByte : Obligations.FlushSendsEveryByte := by
  intro s hacks
  have hframe := startFlush_prompt_frame hacks
  have hfb : (startFlush s).fb = s.fb := by rw [hframe]
  have hacks' : (startFlush s).acks = none := by rw [hframe, hacks]
  refine ⟨rfl, reservedRefused_code .fbFlush, _, _, _, exec_fbFlush s, exec_fbFlush _, rfl, ?_, ?_, hframe, ?_⟩
  · rw [trace_startFlush_prompt hacks, map_disp_flushCalls]
  · rw [trace_startFlush_prompt hacks', trace_startFlush_prompt hacks, hfb, map_disp_flushCalls]
  · rw [startFlush_prompt_frame hacks', hframe]

/-- FB_CLEAR of a framebuffer in canonical form flushes an empty one (R99). -/
theorem exec_fbClear_of_wf {s : State} (h : Memory.wf s.fb) :
    exec .fbClear s = .next (startFlush { s with fb := [] }) := by
  rw [exec_fbClear, zeroBytes_eq_nil h]

/-- Settles O28: the flush is that of an empty framebuffer, whose every byte reads 0x00. -/
theorem clearZeroesThenFlushes : Obligations.ClearZeroesThenFlushes := by
  intro s hwf hacks
  have hframe := startFlush_prompt_frame (s := { s with fb := [] }) hacks
  refine ⟨rfl, reservedRefused_code .fbClear, _, exec_fbClear_of_wf hwf, ?_, fun a => ?_, hframe⟩
  · rw [trace_startFlush_prompt (s := { s with fb := [] }) hacks, map_disp_flushCalls_nil]
    rfl
  · rw [hframe]
    exact Memory.read_nil a

/-- A centered coordinate of a display smaller than 2^15 is not cut by its register (R30, R100). -/
theorem centerOf_toNat {dim size : Int} (hdim : dim < 2 ^ 15) (hsize : 0 ≤ size) :
    ((centerOf dim size).toNat : Int) = max 0 ((dim - size) / 2) := by
  rw [centerOf, BitVec.toNat_ofInt]
  omega

/-- Settles O29: both coordinates by `centerOf_toNat`. -/
theorem centerOrigin : Obligations.CenterOrigin := by
  intro w h s
  exact ⟨rfl, reservedRefused_code .fbCenter, _, rfl, centerOf_toNat (by decide) (Int.natCast_nonneg _),
    centerOf_toNat (by decide) (Int.natCast_nonneg _), rfl⟩

/-- FB_PEEK of an index inside the framebuffer reads that byte (R102). -/
theorem exec_fbPeek_of_lt {index : BitVec 9} (h : index.toNat < 504) (s : State) :
    exec (.fbPeek index) s = .next { s with fbRdata := Memory.read s.fb index.toNat } :=
  if_neg (Nat.not_le.2 h)

/-- FB_PEEK of an index past the framebuffer raises PEEK_RANGE (R102). -/
theorem exec_fbPeek_of_ge {index : BitVec 9} (h : 504 ≤ index.toNat) (s : State) :
    exec (.fbPeek index) s = .next (raiseFault .peekRange (Instr.fbPeek index).word0 s) :=
  if_pos h

/-- Settles O30, by whether the index is one of the framebuffer's. -/
theorem peekReadsOneByte : Obligations.PeekReadsOneByte :=
  fun _ s => ⟨rfl, reservedRefused_code .fbPeek, fun h => exec_fbPeek_of_lt h s, fun h => exec_fbPeek_of_ge h s⟩

end Sys2Proof.Machine
end

section
/-! The DB commands (R112, R113, R115, R116): the button a sample is about, the held duration as a difference of times,
the class of a release, and the three statements about them. -/
namespace Sys2Proof.Machine

theorem exec_dbSample (rawA rawB : BitVec 1) (now : Word) (s : State) :
    exec (.dbSample rawA rawB now) s
      = .next { s with btnA := sampleButton rawA now s.btnA, btnB := sampleButton rawB now s.btnB } := rfl

theorem exec_dbSetThresh_a (ms : Half) (s : State) :
    exec (.dbSetThresh .a ms) s = .next { s with btnA := { s.btnA with thresh := ms } } := rfl

theorem exec_dbSetThresh_b (ms : Half) (s : State) :
    exec (.dbSetThresh .b ms) s = .next { s with btnB := { s.btnB with thresh := ms } } := rfl

/-- A sample takes either button by its own level through the one step of a button (R112, R113). -/
theorem exec_sampleOf (btn : Button) (raw other : BitVec 1) (now : Word) (s : State) :
    ∃ t, exec (sampleOf btn raw other now) s = .next t ∧ buttonOf btn t = sampleButton raw now (buttonOf btn s) := by
  cases btn with
  | a => exact ⟨_, exec_dbSample raw other now s, rfl⟩
  | b => exact ⟨_, exec_dbSample other raw now s, rfl⟩

/-- The held duration as the exact difference of the two times, cut to 32 bits (R114). -/
theorem heldFor_eq_ofInt (now start : Word) :
    heldFor now start = BitVec.ofInt 32 ((now.toNat : Int) - start.toNat) := by
  apply BitVec.eq_of_toNat_eq
  rw [heldFor_toNat, BitVec.toNat_ofInt]
  rfl

theorem isLong_eq_true_iff (dur : Word) (thresh : Half) : isLong dur thresh = true ↔ thresh.toNat ≤ dur.toNat :=
  decide_eq_true_iff

/-- A release with exact integer times (R112). -/
theorem sampleButton_release_exact {b : ButtonState} (now : Word) (h : b.pressed = true) :
    sampleButton 1 now b = { b with
      evt := true
      pressed := false
      dur := BitVec.ofInt 32 ((now.toNat : Int) - b.start.toNat)
      long := decide (b.thresh.toNat ≤ (((now.toNat : Int) - b.start.toNat) % 2 ^ 32).toNat) } := by
  rw [sampleButton_release now h, ← heldFor_eq_ofInt, ← heldFor_toNat]
  rfl

/-- Settles O31: either button ends in its step, whose four cases are the `sampleButton_` laws. -/
theorem sampleSteps : Obligations.SampleSteps := by
  intro rawA rawB now s
  refine ⟨rfl, reservedRefused_code .dbSample, _, _, exec_dbSample rawA rawB now s, fun p hp => ?_⟩
  obtain ⟨raw, b, b'⟩ := p
  have hstep : b' = sampleButton raw now b := by
    simp only [List.mem_cons, List.not_mem_nil, or_false, Prod.mk.injEq] at hp
    obtain ⟨rfl, rfl, rfl⟩ | ⟨rfl, rfl, rfl⟩ := hp
    · rfl
    · rfl
  subst hstep
  refine ⟨?press, ?release, ?held, ?up⟩
  case press =>
    rintro rfl h
    exact sampleButton_press now h
  case release =>
    rintro rfl h
    exact sampleButton_release_exact now h
  case held =>
    rintro rfl h
    exact sampleButton_held now h
  case up =>
    rintro rfl h
    exact sampleButton_up now h

/-- Settles O32: the release writes the class by `isLong`, which holds exactly from the threshold on. -/
theorem releaseClassified : Obligations.ReleaseClassified := by
  intro btn other now s hpressed
  obtain ⟨t, hexec, hbutton⟩ := exec_sampleOf btn 1 other now s
  rw [sampleButton_release now hpressed] at hbutton
  have hlong : (buttonOf btn t).long = true ↔ (buttonOf btn s).thresh.toNat ≤ (buttonOf btn t).dur.toNat := by
    rw [hbutton]
    exact isLong_eq_true_iff _ _
  refine ⟨t, hexec, by rw [hbutton], hlong, ?short, fun htie => hlong.2 htie.ge⟩
  case short => rw [← Bool.not_eq_true, hlong, Nat.not_le]

/-- Settles O36: one clause of DB_SET_THRESH a button. -/
theorem setThreshold : Obligations.SetThreshold :=
  fun ms s => ⟨rfl, rfl, reservedRefused_code .dbSetThresh, exec_dbSetThresh_a ms s, exec_dbSetThresh_b ms s⟩

end Sys2Proof.Machine
end

section
/-! The SYSTEM command NOP (R125): what running it does, and the statement about it. -/
namespace Sys2Proof.Machine

theorem exec_nop (s : State) : exec .nop s = .next s := rfl

/-- Settles O37: its word by the encoding of format N, its reserved bits by `reservedRefused_code`. -/
theorem nopDoesNothing : Obligations.NopDoesNothing :=
  fun s => ⟨rfl, reservedRefused_code .nop, exec_nop s⟩

end Sys2Proof.Machine
end

section
/-! The faults of the block (R130, R131, R133): which fault a command raises in its execution, which fault a word 0
raises and in which order it is checked, the step on a word 0 in these terms, and the two statements about them. -/
namespace Sys2Proof.Machine

/-- The fault a command raises in its execution, if any: FREQ_RANGE of TONE_PLAY (R77), PEEK_RANGE of FB_PEEK
(R102). -/
def execFault : Instr → Option Cause
  | .tonePlay freq =>
    if freq.toNat ≠ 0 ∧ (freq.toNat < 20 ∨ 20000 < freq.toNat) then some .freqRange else none
  | .fbPeek index => if 504 ≤ index.toNat then some .peekRange else none
  | _ => none

theorem execFault_cause {i : Instr} {c : Cause} (h : execFault i = some c) :
    c = .freqRange ∧ (∃ freq, i = .tonePlay freq) ∨ c = .peekRange ∧ ∃ index, i = .fbPeek index := by
  cases i with
  | tonePlay freq =>
    obtain ⟨-, hc⟩ := Option.ite_none_right_eq_some.1 h
    cases hc
    exact .inl ⟨rfl, freq, rfl⟩
  | fbPeek index =>
    obtain ⟨-, hc⟩ := Option.ite_none_right_eq_some.1 h
    cases hc
    exact .inr ⟨rfl, index, rfl⟩
  | _ => cases h

/-- What running a command does to the fault registers: it is fault entry with the command's word 0, or leaves them
alone. -/
theorem exec_fault_cases (i : Instr) (s : State) :
    (∃ c, execFault i = some c ∧ exec i s = .next (raiseFault c i.word0 s))
      ∨ (execFault i = none ∧ ∃ t, exec i s = .next t
          ∧ t.faulted = s.faulted ∧ t.faultCause = s.faultCause ∧ t.faultWord = s.faultWord) := by
  cases i with
  | tonePlay freq =>
    rcases execTonePlay_cases freq s with ⟨h, e⟩ | ⟨h, e⟩ | ⟨⟨hmin, hmax⟩, e⟩
    · exact .inr ⟨if_neg fun hr => hr.1 h, _, e, rfl, rfl, rfl⟩
    · exact .inl ⟨_, if_pos h, e⟩
    · exact .inr ⟨if_neg (by omega), _, e, rfl, rfl, rfl⟩
  | fbPeek index =>
    by_cases h : 504 ≤ index.toNat
    · exact .inl ⟨_, if_pos h, exec_fbPeek_of_ge h s⟩
    · exact .inr ⟨if_neg h, _, exec_fbPeek_of_lt (Nat.not_le.1 h) s, rfl, rfl, rfl⟩
  | fbClear =>
    obtain ⟨c, a, f, e⟩ := startFlush_frame { s with fb := zeroBytes s.fb }
    exact .inr ⟨rfl, _, exec_fbClear s, by rw [e], by rw [e], by rw [e]⟩
  | fbFlush =>
    obtain ⟨c, a, f, e⟩ := startFlush_frame s
    exact .inr ⟨rfl, _, exec_fbFlush s, by rw [e], by rw [e], by rw [e]⟩
  | dbSetThresh btn ms => cases btn <;> exact .inr ⟨rfl, _, rfl, rfl, rfl, rfl⟩
  | _ => exact .inr ⟨rfl, _, rfl, rfl, rfl, rfl⟩

/-- The operand checks of a word 0 with a legal opcode and clear reserved bits (R133). -/
def operandFault (o : Opcode) (w : Word) : Option Cause :=
  if o = .tonePlay ∧ w.toNat % 65536 ≠ 0 ∧ (w.toNat % 65536 < 20 ∨ 20000 < w.toNat % 65536) then some .freqRange
  else if o = .fbPeek ∧ 504 ≤ w.toNat % 512 then some .peekRange
  else none

theorem operandFault_of_ne {o : Opcode} (htone : o ≠ .tonePlay) (hpeek : o ≠ .fbPeek) (w : Word) :
    operandFault o w = none := by
  rw [operandFault, if_neg fun h => htone h.1, if_neg fun h => hpeek h.1]

theorem stringWords_ok {w0 : Word} {ext : List Word} {r : Instr × List Word} (h : stringWords w0 ext = .ok r) :
    ∃ scale spacing x y text, r.1 = .fbDrawString scale spacing x y text := by
  cases ext with
  | nil => cases h
  | cons xy more =>
    rw [stringWords] at h
    split at h
    · cases h
    · cases h
      exact ⟨_, _, _, _, _, rfl⟩

/-- A command that is read from its words faults in its execution as the operand of its word 0 says. -/
theorem execFault_of_decodeFields {o : Opcode} {w : Word} {ext rest : List Word} {i : Instr}
    (h : decodeFields o w ext = .ok (i, rest)) : execFault i = operandFault o w := by
  cases o with
  | tonePlay | fbPeek =>
    cases h
    simp [execFault, operandFault, field_toNat]
  | fbSetPixel | fbDrawGlyph | fbCenter | dbSample =>
    obtain ⟨x, -, rfl⟩ := twoWords_ok h
    exact (operandFault_of_ne (by decide) (by decide) w).symm
  | fbDrawString =>
    obtain ⟨_, _, _, _, _, rfl⟩ := stringWords_ok h
    exact (operandFault_of_ne (by decide) (by decide) w).symm
  | _ =>
    cases h
    exact (operandFault_of_ne (by decide) (by decide) w).symm

/-- A command that still waits for words has no operand that can fault. -/
theorem operandFault_of_incomplete {o : Opcode} {w : Word} {ext : List Word}
    (h : decodeFields o w ext = .error .incomplete) : operandFault o w = none := by
  have hlt := decodeFields_incomplete h
  refine operandFault_of_ne ?_ ?_ w
  · rintro rfl
    exact absurd hlt (Nat.not_lt_zero _)
  · rintro rfl
    exact absurd hlt (Nat.not_lt_zero _)

/-- A command that faults in its execution is the one word it was read from (R59, R65). -/
theorem decode_of_execFault {w : Word} {ext rest : List Word} {i : Instr} {c : Cause}
    (h : decode (w :: ext) = .ok (i, rest)) (hc : execFault i = some c) : i.word0 = w ∧ rest = ext := by
  obtain ⟨o, hcode, hzero, hfields⟩ := decode_cons_ok h
  have hop : o = .tonePlay ∨ o = .fbPeek := by
    by_contra! hne
    rw [execFault_of_decodeFields hfields, operandFault_of_ne hne.1 hne.2] at hc
    cases hc
  have hw := w.isLt
  rcases hop with rfl | rfl
  all_goals
    cases hfields
    refine ⟨BitVec.eq_of_toNat_eq ?_, rfl⟩
    simp only [Opcode.code, Opcode.reservedLo, Opcode.reservedWidth] at hcode hzero
    simp only [Instr.word0, encode, List.headD_cons, toNat_concat, field_toNat, BitVec.toNat_ofNat]
    omega

/-- The fault a word 0 raises, its checks in R133's order: opcode, reserved bits, operand. -/
def word0Fault (w : Word) : Option Cause :=
  match Opcode.ofByte (opcodeByte w) with
  | none => some .illegalOpcode
  | some o => if w &&& o.reservedMask ≠ 0 then some .reservedField else operandFault o w

theorem word0Fault_of_illegal {w : Word} (h : Opcode.ofByte (opcodeByte w) = none) :
    word0Fault w = some .illegalOpcode := by
  simp only [word0Fault, h]

theorem word0Fault_of_code {o : Opcode} {w : Word} (h : w.toNat / 2 ^ 24 = o.code) :
    word0Fault w = if w &&& o.reservedMask ≠ 0 then some .reservedField else operandFault o w := by
  simp only [word0Fault, (ofByte_opcodeByte_iff w o).2 h]

/-- What the decoder answers on a word 0 and the fault that word raises: a fault found at the word itself, a command
that faults in its execution as the word says, or a wait without a fault. -/
theorem decode_word0Fault (w : Word) (ext : List Word) :
    (decode (w :: ext) = .error .illegalOpcode ∧ word0Fault w = some .illegalOpcode)
      ∨ (decode (w :: ext) = .error .reservedField ∧ word0Fault w = some .reservedField)
      ∨ (decode (w :: ext) = .error .incomplete ∧ word0Fault w = none)
      ∨ ∃ i rest, decode (w :: ext) = .ok (i, rest) ∧ word0Fault w = execFault i := by
  cases ho : Opcode.ofByte (opcodeByte w) with
  | none =>
    refine .inl ⟨decode_of_illegal (fun o hcode => ?_) ext, word0Fault_of_illegal ho⟩
    rw [← ofByte_opcodeByte_iff, ho] at hcode
    cases hcode
  | some o =>
    have hcode := (ofByte_opcodeByte_iff w o).1 ho
    rw [word0Fault_of_code hcode]
    by_cases hzero : w &&& o.reservedMask = 0
    · rw [if_neg (not_not_intro hzero), decode_of_reserved_zero hcode hzero]
      rcases takesWords_decodeFields o w ext with ⟨-, he⟩ | ⟨-, i, he⟩
      · exact .inr (.inr (.inl ⟨he, operandFault_of_incomplete he⟩))
      · exact .inr (.inr (.inr ⟨i, _, he, (execFault_of_decodeFields he).symm⟩))
    · rw [if_pos hzero]
      exact .inr (.inl ⟨reservedRefused_code o w ext hcode hzero, rfl⟩)

theorem takeCommand_of_incomplete {s : State} (h : decode (pendingWords s) = .error .incomplete) :
    takeCommand s = .next { s with cmdBuf := pendingWords s, port := [] } := by
  simp only [takeCommand, h]

theorem takeCommand_of_ok {s : State} {i : Instr} {rest : List Word} (h : decode (pendingWords s) = .ok (i, rest)) :
    takeCommand s = exec i { s with cmdBuf := [], port := rest } := by
  simp only [takeCommand, h]

section
variable {s : State} {w : Word} {rest : List Word} (hready : s.Ready) (henv : s.env = []) (hport : s.port = w :: rest)
include hready henv hport

/-- The first step on a word 0 that raises a fault is fault entry with that word, which it takes alone (R131). -/
theorem step_of_word0Fault_some {c : Cause} (hc : word0Fault w = some c) :
    step s = .next { elapse s with
      port := rest, faulted := true, faultCause := causeCode c, faultWord := w, cmdBuf := [] } := by
  have hpending : pendingWords (elapse s) = w :: rest := by rw [pendingWords_of_ready hready, hport]
  rw [step_of_ready hready henv]
  rcases decode_word0Fault w rest with ⟨hd, hf⟩ | ⟨hd, hf⟩ | ⟨-, hf⟩ | ⟨i, left, hd, hf⟩ <;> rw [hc] at hf
  · cases hf
    rw [takeCommand_of_illegalOpcode (by rw [hpending, hd]), faultWord0_of_ready hready hport]
  · cases hf
    rw [takeCommand_of_reservedField (by rw [hpending, hd]), faultWord0_of_ready hready hport]
  · cases hf
  · obtain ⟨rfl, rfl⟩ := decode_of_execFault hd hf.symm
    rw [takeCommand_of_ok (by rw [hpending, hd])]
    rcases exec_fault_cases i { elapse s with cmdBuf := [], port := left } with ⟨c', hc', e⟩ | ⟨hnone, -⟩
    · cases hf.trans hc'
      exact e
    · cases hf.trans hnone

/-- The first step on a word 0 that raises no fault leaves the fault registers alone (R130). -/
theorem step_of_word0Fault_none (hc : word0Fault w = none) :
    ∃ t, step s = .next t ∧ t.faulted = false ∧ t.faultCause = s.faultCause ∧ t.faultWord = s.faultWord := by
  have hpending : pendingWords (elapse s) = w :: rest := by rw [pendingWords_of_ready hready, hport]
  rw [step_of_ready hready henv]
  rcases decode_word0Fault w rest with ⟨-, hf⟩ | ⟨-, hf⟩ | ⟨hd, -⟩ | ⟨i, left, hd, hf⟩
  · cases hc.symm.trans hf
  · cases hc.symm.trans hf
  · exact ⟨_, takeCommand_of_incomplete (by rw [hpending, hd]), hready.noFault, rfl, rfl⟩
  · rw [takeCommand_of_ok (by rw [hpending, hd])]
    rcases exec_fault_cases i { elapse s with cmdBuf := [], port := left } with
      ⟨c, hsome, -⟩ | ⟨-, t, e, hfaulted, hcause, hword⟩
    · cases hc.symm.trans (hf.trans hsome)
    · exact ⟨t, e, hfaulted.trans hready.noFault, hcause, hword⟩

end

theorem causeCode_ne_zero (c : Cause) : causeCode c ≠ 0 := by cases c <;> decide

/-- Settles O40: the step is fault entry with `word0Fault`, or leaves the clean registers alone. -/
theorem wordZeroDecidesFault : Obligations.WordZeroDecidesFault := by
  intro s w rest hready henv hport hcause hword
  obtain ⟨t, hstep, hcode, hclean, hraised⟩ : ∃ t, step s = .next t
      ∧ t.faultCause = (word0Fault w).elim 0 causeCode
      ∧ (t.faultCause = 0 → t.faulted = false ∧ t.faultWord = 0)
      ∧ (t.faultCause ≠ 0 → t.faulted = true ∧ t.faultWord = w ∧ t.cmdBuf = []) := by
    cases hfault : word0Fault w with
    | none =>
      obtain ⟨t, hstep, hf, hc, hw⟩ := step_of_word0Fault_none hready henv hport hfault
      have hzero : t.faultCause = 0 := hc.trans hcause
      exact ⟨t, hstep, hzero, fun _ => ⟨hf, hw.trans hword⟩, fun hne => absurd hzero hne⟩
    | some c =>
      exact ⟨_, step_of_word0Fault_some hready henv hport hfault, rfl,
        fun hzero => absurd hzero (causeCode_ne_zero c), fun _ => ⟨rfl, rfl, rfl⟩⟩
  refine ⟨t, hstep, hcode.trans ?_, hclean, hraised⟩
  rw [word0Fault]
  cases Opcode.ofByte (opcodeByte w) with
  | none => rfl
  | some o =>
    simp only [operandFault]
    split_ifs <;> rfl

/-- Settles O41: in execution by `exec_fault_cases`, at word 0 by `step_of_word0Fault_some`; in the other case of each
the block has not faulted. -/
theorem faultEntryOnly : Obligations.FaultEntryOnly := by
  refine ⟨?execution, ?word0⟩
  case execution =>
    intro i s t hclean hexec hfaulted
    rcases exec_fault_cases i s with ⟨c, hc, e⟩ | ⟨-, u, e, hu, -⟩ <;> cases e.symm.trans hexec
    · refine ⟨rfl, (execFault_cause hc).imp ?_ ?_⟩ <;> exact fun h => ⟨h.1 ▸ rfl, h.2⟩
    · cases (hu.trans hclean).symm.trans hfaulted
  case word0 =>
    intro s t w rest hready henv hport hstep hfaulted
    cases hfault : word0Fault w with
    | none =>
      obtain ⟨u, e, hu, -⟩ := step_of_word0Fault_none hready henv hport hfault
      cases e.symm.trans hstep
      cases hu.symm.trans hfaulted
    | some c =>
      cases (step_of_word0Fault_some hready henv hport hfault).symm.trans hstep
      rfl

end Sys2Proof.Machine
end

section
/-! Encoding and decoding against each other (R55 to R68): the opcode of a command, that its word 0 passes the checks,
that its format reads the operands back, and which words a decoded command was read from. -/
namespace Sys2Proof

/-- The opcode of each command (R68). -/
def Instr.opcode : Instr → Opcode
  | .nop => .nop
  | .tonePlay _ => .tonePlay
  | .toneStop => .toneStop
  | .fbClear => .fbClear
  | .fbSetPixel _ _ _ => .fbSetPixel
  | .fbDrawGlyph _ _ _ _ => .fbDrawGlyph
  | .fbDrawString _ _ _ _ _ => .fbDrawString
  | .fbFlush => .fbFlush
  | .fbCenter _ _ => .fbCenter
  | .fbPeek _ => .fbPeek
  | .dbSample _ _ _ => .dbSample
  | .dbSetThresh _ _ => .dbSetThresh

/-- The opcode byte of a command's word 0 is its opcode's (R57). -/
theorem word0_code (i : Instr) : i.word0.toNat / 2 ^ 24 = i.opcode.code := by
  cases i <;>
    simp only [Instr.word0, encode, List.headD_cons, toNat_concat, BitVec.toNat_ofNat, Instr.opcode, Opcode.code] <;>
    omega

/-- The reserved bits of a command's word 0 are 0 (R71). -/
theorem word0_reserved (i : Instr) :
    i.word0.toNat / 2 ^ i.opcode.reservedLo % 2 ^ i.opcode.reservedWidth = 0 := by
  cases i <;>
    simp only [Instr.word0, encode, List.headD_cons, toNat_concat, BitVec.toNat_ofNat, Instr.opcode,
      Opcode.reservedLo, Opcode.reservedWidth] <;>
    omega

theorem encode_eq_cons (i : Instr) : encode i = i.word0 :: (encode i).tail := by
  cases i <;> rfl

/-- A command's word 0 sends the words after it to the format of its opcode (R56). -/
theorem decode_word0 (i : Instr) (ext : List Word) : decode (i.word0 :: ext) = decodeFields i.opcode i.word0 ext :=
  decode_cons ext (word0_code i) (word0_reserved i)

/-- A field of a word is an operand exactly when it has its number. -/
theorem field_eq_iff {w : Word} {lo n : Nat} {v : BitVec n} :
    field w lo n = v ↔ w.toNat / 2 ^ lo % 2 ^ n = v.toNat := by
  rw [← field_toNat, BitVec.toNat_inj]

@[simp] theorem field_halves_high (hi lo : Half) : field (halves hi lo) 16 16 = hi := by
  rw [field_eq_iff, halves, toNat_concat]
  omega

@[simp] theorem field_halves_low (hi lo : Half) : field (halves hi lo) 0 16 = lo := by
  rw [field_eq_iff, halves, toNat_concat]
  omega

theorem buttonOfBit_eq_iff {b : BitVec 1} {btn : Button} : buttonOfBit b = btn ↔ b = bitOfButton btn := by
  revert b
  cases btn <;> decide

@[simp] theorem bitOfButton_buttonOfBit (b : BitVec 1) : bitOfButton (buttonOfBit b) = b :=
  (buttonOfBit_eq_iff.1 rfl).symm

/-- The format of a command reads back every operand from the words that its encoding gives them (R58 to R67). -/
theorem decodeFields_encode {i : Instr} (hwf : i.wf = true) (rest : List Word) :
    decodeFields i.opcode i.word0 ((encode i).tail ++ rest) = .ok (i, rest) := by
  cases i with
  | nop | toneStop | fbClear | fbFlush => rfl
  | tonePlay | fbPeek | dbSetThresh =>
    simp only [Instr.opcode, decodeFields, oneWord, Instr.word0, encode, List.headD_cons, List.tail_cons,
      List.nil_append, Except.ok.injEq, Prod.mk.injEq, Instr.tonePlay.injEq, Instr.fbPeek.injEq,
      Instr.dbSetThresh.injEq, and_true, buttonOfBit_eq_iff, field_eq_iff, toNat_concat]
    omega
  | fbSetPixel | fbDrawGlyph | dbSample =>
    simp only [Instr.opcode, decodeFields, twoWords, Instr.word0, encode, List.headD_cons, List.tail_cons,
      List.nil_append, List.cons_append, field_halves_high, field_halves_low, Except.ok.injEq, Prod.mk.injEq,
      Instr.fbSetPixel.injEq, Instr.fbDrawGlyph.injEq, Instr.dbSample.injEq, and_true, field_eq_iff, toNat_concat]
    omega
  | fbCenter w h =>
    simp [Instr.opcode, decodeFields, twoWords, encode]
  | fbDrawString scale spacing x y text =>
    have hlen : (field (Instr.fbDrawString scale spacing x y text).word0 0 8).toNat = text.length := by
      have htext : text.length ≤ 255 := of_decide_eq_true hwf
      simp only [field_toNat, Instr.word0, encode, List.headD_cons, toNat_concat, BitVec.toNat_ofNat]
      omega
    refine (stringWords_append (by rw [hlen, length_packText]) (halves x y) rest).trans ?_
    rw [hlen, unpack_packText, field_halves_high, field_halves_low]
    simp only [Instr.word0, encode, List.headD_cons, Except.ok.injEq, Prod.mk.injEq, Instr.fbDrawString.injEq,
      and_true, field_eq_iff, toNat_concat]
    omega

/-- Settles O2: word 0 passes its checks by `decode_word0`, and the format reads the operands back by
`decodeFields_encode`. -/
theorem decodeEncodeRoundTrip : Obligations.DecodeEncodeRoundTrip := by
  intro i rest hwf
  rw [encode_eq_cons, List.cons_append, decode_word0, decodeFields_encode hwf]

/-- Settles O1: nine closed words. -/
theorem decodeSpecWords : Obligations.DecodeSpecWords := by
  unfold Obligations.DecodeSpecWords
  decide

/-- These words read as the command: they are as many as its encoding, the first two are those of its encoding, and a
string's characters are the bytes of its TEXT words, whatever stands past them (R63). -/
structure ReadsAs (own : List Word) (i : Instr) : Prop where
  wf : i.wf = true
  length : own.length = (encode i).length
  firstTwo : own.take 2 = (encode i).take 2
  text : ∀ scale spacing x y text, i = .fbDrawString scale spacing x y text →
    text = (unpackText (own.drop 2)).take text.length

theorem readsAs_encode {i : Instr} (hwf : i.wf = true) : ReadsAs (encode i) i where
  wf := hwf
  length := rfl
  firstTwo := rfl
  text := by
    rintro scale spacing x y text rfl
    exact (unpack_packText text).symm

/-- The words of a decoded FB_DRAW_STRING: the XY word and as many TEXT words as LEN asks for (R63). -/
theorem stringWords_ok_words {w : Word} {ext rest : List Word} {i : Instr} (h : stringWords w ext = .ok (i, rest)) :
    ∃ xy tw, ext = xy :: (tw ++ rest) ∧ tw.length = textWordCount (field w 0 8).toNat
      ∧ i = .fbDrawString (field w 16 8) (field w 8 8) (field xy 16 16) (field xy 0 16)
          ((unpackText tw).take (field w 0 8).toNat) := by
  cases ext with
  | nil => cases h
  | cons xy more =>
    rw [stringWords] at h
    split at h
    · cases h
    · cases h
      refine ⟨xy, more.take (textWordCount (field w 0 8).toNat), ?_, ?_, rfl⟩
      · rw [List.take_append_drop]
      · rw [List.length_take]
        omega

/-- The words of a decoded FB_DRAW_STRING read as it, also with other bytes past the string's end (R63). -/
theorem readsAs_string {w xy : Word} {tw : List Word} (hcode : w.toNat / 2 ^ 24 = Opcode.fbDrawString.code)
    (htw : tw.length = textWordCount (field w 0 8).toNat) :
    ReadsAs (w :: xy :: tw) (.fbDrawString (field w 16 8) (field w 8 8) (field xy 16 16) (field xy 0 16)
      ((unpackText tw).take (field w 0 8).toNat)) := by
  have hlen : ((unpackText tw).take (field w 0 8).toNat).length = (field w 0 8).toNat := by
    rw [List.length_take, length_unpackText, htw, textWordCount]
    omega
  have hword0 : (0x23#8 ++ field w 16 8 ++ field w 8 8
      ++ BitVec.ofNat 8 ((unpackText tw).take (field w 0 8).toNat).length : BitVec 32) = w := by
    apply BitVec.eq_of_toNat_eq
    rw [hlen]
    simp only [Opcode.code] at hcode
    simp only [toNat_concat, field_toNat, BitVec.toNat_ofNat]
    omega
  refine ⟨?wf, ?length, ?firstTwo, ?text⟩
  case wf =>
    rw [Instr.wf, hlen, decide_eq_true_iff]
    omega
  case length =>
    rw [encode, List.length_cons, List.length_cons, List.length_cons, List.length_cons, length_packText, hlen, htw]
  case firstTwo =>
    rw [encode, hword0, halves_field]
    rfl
  case text =>
    rintro scale spacing x y text h
    cases h
    rw [hlen]
    rfl

/-- Words that decode to a command begin with words that read as it: in every format but that of FB_DRAW_STRING they
are its encoding, as the opcode, the reserved zeros and the operands are all of word 0. -/
theorem decode_ok_readsAs {ws rest : List Word} {i : Instr} (h : decode ws = .ok (i, rest)) :
    ∃ own, ws = own ++ rest ∧ ReadsAs own i := by
  cases ws with
  | nil => cases h
  | cons w ext =>
    obtain ⟨o, hcode, hzero, hfields⟩ := decode_cons_ok h
    cases o
    case fbDrawString =>
      obtain ⟨xy, tw, rfl, htw, rfl⟩ := stringWords_ok_words hfields
      exact ⟨w :: xy :: tw, rfl, readsAs_string hcode htw⟩
    case' fbSetPixel | fbDrawGlyph | fbCenter | dbSample => obtain ⟨x, rfl, rfl⟩ := twoWords_ok hfields
    case' nop | tonePlay | toneStop | fbClear | fbFlush | fbPeek | dbSetThresh => cases hfields
    all_goals
      refine ⟨_, ?_, readsAs_encode rfl⟩
      simp only [Opcode.code, Opcode.reservedLo, Opcode.reservedWidth] at hcode hzero
      simp only [encode, halves_field, bitOfButton_buttonOfBit, List.cons_append, List.nil_append, List.cons.injEq,
        and_true]
      apply BitVec.eq_of_toNat_eq
      simp only [toNat_concat, field_toNat, BitVec.toNat_ofNat]
      omega

/-- Settles O3: what `ReadsAs` says of the command's own words, said of all the words. -/
theorem decodedWordsAreEncoded : Obligations.DecodedWordsAreEncoded := by
  intro ws rest i h
  obtain ⟨own, rfl, hwf, hlength, htwo, htext⟩ := decode_ok_readsAs h
  refine ⟨hwf, ?_, ?_, ?_, ?_⟩
  · rw [List.length_append, hlength]
  · rw [← hlength, List.drop_left]
  · rw [List.take_append, List.take_append, htwo, hlength]
  · rw [← hlength, List.take_left]
    exact htext

/-- A command has as many extension words as its word 0 announces (R68). -/
theorem length_tail_encode {i : Instr} (hwf : i.wf = true) :
    (encode i).tail.length = i.opcode.extWords i.word0 := by
  have htakes := takesWords_decodeFields i.opcode i.word0 ((encode i).tail ++ [])
  rw [decodeFields_encode hwf] at htakes
  simpa using takesWords_ok htakes

/-- Some of a command's words, word 0 among them, but not all, are an unfinished command (R56). -/
theorem decode_take_encode {i : Instr} (hwf : i.wf = true) {n : Nat} (hpos : 0 < n) (hn : n < (encode i).length) :
    decode ((encode i).take n) = .error .incomplete := by
  obtain ⟨k, rfl⟩ := Nat.exists_eq_add_one.2 hpos
  have hshort : ((encode i).tail.take k).length < i.opcode.extWords i.word0 := by
    rw [← length_tail_encode hwf, List.length_take, List.length_tail]
    omega
  rw [encode_eq_cons, List.take_succ_cons, decode_word0]
  rcases takesWords_decodeFields i.opcode i.word0 ((encode i).tail.take k) with ⟨-, he⟩ | ⟨hle, -⟩
  · exact he
  · exact absurd hshort (Nat.not_lt.2 hle)

end Sys2Proof
end

section
/-! The block's turn and the step (R14, R15, R56, R79, R126, R134, R139, R151): what each can do, said once, and the
statements that follow from the case it is in. -/
namespace Sys2Proof.Machine

/-- Every command answers a next state (R127). -/
theorem exec_total (i : Instr) (s : State) : ∃ t, exec i s = .next t := by
  rcases exec_fault_cases i s with ⟨c, -, e⟩ | ⟨-, t, e, -⟩
  · exact ⟨_, e⟩
  · exact ⟨t, e⟩

/-- FB_PEEK faults or reads one byte (R102). -/
theorem exec_fbPeek_cases (index : BitVec 9) (s : State) :
    exec (.fbPeek index) s = .next (raiseFault .peekRange (Instr.fbPeek index).word0 s)
      ∨ exec (.fbPeek index) s = .next { s with fbRdata := Memory.read s.fb index.toNat } := by
  by_cases h : 504 ≤ index.toNat
  · exact .inl (exec_fbPeek_of_ge h s)
  · exact .inr (exec_fbPeek_of_lt (Nat.not_le.1 h) s)

theorem takeCommand_of_noWord {s : State} (h : decode (pendingWords s) = .error .noWord) :
    takeCommand s = .next s := by
  simp only [takeCommand, h]

/-- Everything a block that takes a command can do: fault at word 0, find no word, collect the words of an unfinished
command, or execute one (R56). -/
theorem takeCommand_cases (s : State) :
    (∃ c, takeCommand s = .next (faultWord0 c s))
      ∨ takeCommand s = .next s
      ∨ (decode (pendingWords s) = .error .incomplete
          ∧ takeCommand s = .next { s with cmdBuf := pendingWords s, port := [] })
      ∨ ∃ i rest, takeCommand s = exec i { s with cmdBuf := [], port := rest } := by
  cases h : decode (pendingWords s) with
  | ok r => exact .inr (.inr (.inr ⟨r.1, r.2, takeCommand_of_ok h⟩))
  | error r =>
    cases r with
    | noWord => exact .inr (.inl (takeCommand_of_noWord h))
    | illegalOpcode => exact .inl ⟨_, takeCommand_of_illegalOpcode h⟩
    | reservedField => exact .inl ⟨_, takeCommand_of_reservedField h⟩
    | incomplete => exact .inr (.inr (.inl ⟨rfl, takeCommand_of_incomplete h⟩))

/-- A block's turn by its fault and its flush (R134, R155). -/
theorem blockTurn_cases (s : State) :
    (s.faulted = true ∧ blockTurn s = .next (discardWord s))
      ∨ (s.faulted = false ∧ ∃ k, s.flush = some k ∧ blockTurn s = .next (resumeFlush k s))
      ∨ (s.faulted = false ∧ s.flush = none ∧ blockTurn s = takeCommand s) := by
  cases hf : s.faulted with
  | true => exact .inl ⟨rfl, blockTurn_of_faulted hf⟩
  | false =>
    cases hk : s.flush with
    | some k => exact .inr (.inl ⟨rfl, k, rfl, blockTurn_of_flush hf hk⟩)
    | none => exact .inr (.inr ⟨rfl, rfl, blockTurn_of_idle hf hk⟩)

theorem takeCommand_total (s : State) : ∃ t, takeCommand s = .next t := by
  rcases takeCommand_cases s with ⟨c, e⟩ | e | ⟨-, e⟩ | ⟨i, rest, e⟩
  · exact ⟨_, e⟩
  · exact ⟨_, e⟩
  · exact ⟨_, e⟩
  · rw [e]
    exact exec_total i _

theorem blockTurn_total (s : State) : ∃ t, blockTurn s = .next t := by
  rcases blockTurn_cases s with ⟨-, e⟩ | ⟨-, k, -, e⟩ | ⟨-, -, e⟩
  · exact ⟨_, e⟩
  · exact ⟨_, e⟩
  · rw [e]
    exact takeCommand_total s

/-- Everything a step that answers a next state can be, after the free advance: the block's turn, perhaps with a word
the host wrote, a register read, a change of the completions, or a reset. -/
theorem step_cases {s t : State} (h : step s = .next t) :
    (∃ env port, blockTurn { elapse s with env := env, port := port } = .next t)
      ∨ (∃ env v, t = { elapse s with env := env, readData := some v })
      ∨ (∃ env a, t = { elapse s with env := env, acks := a })
      ∨ ∃ env, s.env = .reset :: env ∧ t = resetBlock { elapse s with env := env } := by
  cases he : s.env with
  | nil =>
    rw [step_of_env_nil he] at h
    exact .inl ⟨s.env, s.port, h⟩
  | cons e rest =>
    rw [step_of_env_cons he] at h
    cases e with
    | turn => exact .inl ⟨rest, s.port, h⟩
    | write w => exact .inl ⟨rest, s.port ++ [w], h⟩
    | read n =>
      rcases readReg_cases s n with ⟨-, v, hv⟩ | ⟨-, hv⟩
      · simp only [envTurn, readReg_elapse, hv] at h
        cases h
        exact .inr (.inl ⟨rest, v, rfl⟩)
      · simp only [envTurn, readReg_elapse, hv] at h
        cases h
    | acks a =>
      cases h
      exact .inr (.inr (.inl ⟨rest, a, rfl⟩))
    | reset =>
      cases h
      exact .inr (.inr (.inr ⟨rest, rfl, rfl⟩))

/-- Settles O39: the register's value stands after the free advance as before it, by `readReg_elapse`. -/
theorem readHasNoSideEffect : Obligations.ReadHasNoSideEffect := by
  intro s n rest henv
  rw [step_of_env_cons henv, envTurn, readReg_elapse]
  rcases readReg_cases s n with ⟨hn, v, hv⟩ | ⟨hn, hv⟩
  · rw [hv]
    exact ⟨fun _ => ⟨v, rfl, rfl⟩, fun h => by omega⟩
  · rw [hv]
    exact ⟨fun h => by omega, fun _ => rfl⟩

/-- Settles O43: a faulted block's turn is `discardWord`, which leaves the named fields alone, and so do a read and a
change of the completions. -/
theorem faultedBlockIsQuiescent : Obligations.FaultedBlockIsQuiescent := by
  intro s hfaulted
  refine ⟨fun henv => ?_, fun t h hreset => ?_⟩
  · exact (step_of_env_nil henv).trans (blockTurn_of_faulted hfaulted)
  · rcases step_cases h with ⟨env, port, e⟩ | ⟨env, v, rfl⟩ | ⟨env, a, rfl⟩ | ⟨env, henv, -⟩
    · cases (blockTurn_of_faulted (s := { elapse s with env := env, port := port }) hfaulted).symm.trans e
      exact ⟨hfaulted, rfl, rfl, rfl, rfl, rfl, rfl, rfl, rfl, rfl, rfl, rfl, rfl⟩
    · exact ⟨hfaulted, rfl, rfl, rfl, rfl, rfl, rfl, rfl, rfl, rfl, rfl, rfl, rfl⟩
    · exact ⟨hfaulted, rfl, rfl, rfl, rfl, rfl, rfl, rfl, rfl, rfl, rfl, rfl, rfl⟩
    · exact absurd (by rw [henv]; rfl) hreset

/-- A step of a block that is not faulted and inside no flush, with no event waiting, takes a command (R56). -/
theorem step_of_idle {s : State} (henv : s.env = []) (hf : s.faulted = false) (hk : s.flush = none) :
    step s = takeCommand (elapse s) :=
  (step_of_env_nil henv).trans (blockTurn_of_idle hf hk)

/-- When the words it can take decode to a command, that step runs it past those words. -/
theorem step_of_idle_ok {s : State} {i : Instr} {rest : List Word} (henv : s.env = []) (hf : s.faulted = false)
    (hk : s.flush = none) (h : decode (pendingWords s) = .ok (i, rest)) :
    step s = exec i { elapse s with cmdBuf := [], port := rest } :=
  (step_of_idle henv hf hk).trans (takeCommand_of_ok h)

/-- A word that arrives at a block that is not faulted and inside no flush, with none waiting before it, is taken with
the words collected so far (R56). -/
theorem step_of_write {s : State} {w : Word} {rest : List EnvEvent} (hf : s.faulted = false) (hk : s.flush = none)
    (henv : s.env = .write w :: rest) :
    step s = takeCommand { elapse s with env := rest, port := s.port ++ [w] } := by
  rw [step_of_env_cons henv]
  exact blockTurn_of_idle hf hk

/-- Settles O48: the words the block can take are those of CMD_BUF and the one that arrived, and each answer of the
decoder has its equation of `takeCommand`. -/
theorem wordArrives : Obligations.WordArrives := by
  intro s w rest hf hk hport henv
  have hpending : pendingWords { elapse s with env := rest, port := s.port ++ [w] } = s.cmdBuf ++ [w] := by
    rw [hport]
    rfl
  have hnil : (elapse s).port = [] := hport
  rw [step_of_write hf hk henv, ← hpending]
  refine ⟨takeCommand_of_illegalOpcode, takeCommand_of_reservedField, fun h => ?_, fun i h => ?_⟩
  · rw [takeCommand_of_incomplete h, ← hnil]
  · rw [takeCommand_of_ok h, ← hnil]

/-- Settles O46: with CMD_BUF empty the words the block can take are those at the port. -/
theorem stepRunsDecoded : Obligations.StepRunsDecoded := by
  intro s i rest hready henv hdecode
  rw [← pendingWords_of_ready hready] at hdecode
  rw [step_of_idle_ok henv hready.noFault hready.noFlush hdecode, ← hready.noWords]
  rfl

/-- Settles O47: the events `turn` and `write` both give the block its turn. -/
theorem turnEventRunsBlock : Obligations.TurnEventRunsBlock :=
  fun _ _ => ⟨step_of_env_cons, fun _ => step_of_env_cons⟩

/-- Settles O45: a reset keeps only the environment's fields, of which the advance changes the count of draws. -/
theorem resetEvent : Obligations.ResetEvent :=
  fun _ _ => step_of_env_cons

/-- Settles O50: a next state by `exec_total`, the frame by `exec_frame`. -/
theorem everyCommandCompletes : Obligations.EveryCommandCompletes := by
  intro i s
  obtain ⟨t, h⟩ := exec_total i s
  exact ⟨t, h, exec_frame h⟩

/-- Settles O54, by the event that waits: only a read has an answer that is no next state, by `readReg_cases`. -/
theorem onlyUnmappedReadStops : Obligations.OnlyUnmappedReadStops := by
  intro s
  cases he : s.env with
  | nil =>
    rw [step_of_env_nil he]
    exact .inl (blockTurn_total _)
  | cons e rest =>
    rw [step_of_env_cons he]
    cases e with
    | turn | write w => exact .inl (blockTurn_total _)
    | acks | reset => exact .inl ⟨_, rfl⟩
    | read n =>
      rw [envTurn, readReg_elapse]
      rcases readReg_cases s n with ⟨-, v, hv⟩ | ⟨hn, hv⟩
      · rw [hv]
        exact .inl ⟨_, rfl⟩
      · rw [hv]
        exact .inr ⟨n, rest, rfl, hn, rfl⟩

/-- No turn of the block calls `writeCommandByte` or takes a call back (R16). -/
theorem blockTurn_calls {s t : State} (h : blockTurn s = .next t) : addsCalls s t := by
  rcases blockTurn_cases s with ⟨-, e⟩ | ⟨-, k, -, e⟩ | ⟨-, -, e⟩
  · cases e.symm.trans h
    exact addsCalls_of_eq rfl
  · cases e.symm.trans h
    exact addsCalls_resumeFlush k s
  · rw [e] at h
    rcases takeCommand_cases s with ⟨c, e⟩ | e | ⟨-, e⟩ | ⟨i, rest, e⟩
    · cases e.symm.trans h
      exact addsCalls_of_eq rfl
    · cases e.symm.trans h
      exact addsCalls_of_eq rfl
    · cases e.symm.trans h
      exact addsCalls_of_eq rfl
    · have hcalls := exec_calls (e.symm.trans h)
      exact hcalls

/-- Settles O53: the block's turn by `blockTurn_calls`; no other event makes a call. -/
theorem neverCommandByte : Obligations.NeverCommandByte := by
  intro s t h
  rcases step_cases h with ⟨env, port, e⟩ | ⟨env, v, rfl⟩ | ⟨env, a, rfl⟩ | ⟨env, -, rfl⟩
  · have hcalls := blockTurn_calls e
    exact hcalls
  · exact addsCalls_of_eq rfl
  · exact addsCalls_of_eq rfl
  · exact addsCalls_of_eq rfl

/-- Settles O42: each of the rule's words by the fault its checks find first, `word0Fault`. -/
theorem faultPriority : Obligations.FaultPriority := by
  intro s rest hready henv
  refine ⟨fun hport => ?opcode, fun hport => ?reserved, fun hport => ?range⟩
  case opcode => exact ⟨_, step_of_word0Fault_some (c := .illegalOpcode) hready henv hport (by decide), rfl⟩
  case reserved => exact ⟨_, step_of_word0Fault_some (c := .reservedField) hready henv hport (by decide), rfl⟩
  case range => exact ⟨_, step_of_word0Fault_some (c := .freqRange) hready henv hport (by decide), rfl⟩

/-- A block with CMD_BUF holding an unfinished command and no word at the port waits for words (R139). -/
theorem waitsForWords_of_collected {s : State} (hf : s.faulted = false) (hk : s.flush = none) (hport : s.port = [])
    (h : decode s.cmdBuf = .error .incomplete) : s.waitsForWords := by
  refine ⟨hf, hk, ?_⟩
  rw [pendingWords, hport, List.append_nil, h]

/-- Settles O57: the turn collects what there is by `takeCommand_of_incomplete`, and the words are still unfinished. -/
theorem waitingForWordsPersists : Obligations.WaitingForWordsPersists := by
  refine ⟨fun h => ?_, fun s h => ?_⟩
  · obtain ⟨-, -, hdecode⟩ := h
    cases hdecode
  · obtain ⟨hf, hk, hdecode⟩ := h
    refine ⟨fun henv => ⟨?_, waitsForWords_of_collected hf hk rfl hdecode⟩,
      fun rest henv => ⟨?_, waitsForWords_of_collected hf hk rfl hdecode⟩⟩
    · rw [step_of_idle henv hf hk]
      exact takeCommand_of_incomplete hdecode
    · rw [step_of_env_cons henv, envTurn, blockTurn_of_idle (s := { elapse s with env := rest }) hf hk]
      exact takeCommand_of_incomplete hdecode

/-- Settles O49: the first words are unfinished by `decode_take_encode`; with the others behind them they are the
command's encoding again, which decodes to it. -/
theorem splitCommandWaits : Obligations.SplitCommandWaits := by
  intro s i n rest hwf hready henv hpos hn
  have hshort := decode_take_encode hwf hpos hn
  refine ⟨fun hport => ⟨?collects, waitsForWords_of_collected hready.noFault hready.noFlush rfl hshort⟩, ?runs⟩
  case collects =>
    have hpending := pendingWords_of_ready hready
    rw [hport] at hpending
    rw [step_of_ready hready henv, takeCommand_of_incomplete (by rw [hpending, hshort]), hpending]
  case runs =>
    have hdecode : decode ((encode i).take n ++ ((encode i).drop n ++ rest)) = .ok (i, rest) := by
      rw [← List.append_assoc, List.take_append_drop, decodeEncodeRoundTrip i rest hwf]
    have hstep := step_of_idle_ok (s := { s with cmdBuf := (encode i).take n, port := (encode i).drop n ++ rest })
      henv hready.noFault hready.noFlush hdecode
    rw [hstep, ← hready.noWords]
    rfl

end Sys2Proof.Machine
end

section
/-! The invariant (R28, R35, R36, R77, R79, R117): it holds after reset, and every command, every turn of the block and
every step keep it. -/
namespace Sys2Proof.Machine

/-- Settles O51: after reset FB is empty, nothing runs, nothing is collected and nothing has faulted. -/
theorem resetInvariant : Obligations.ResetInvariant where
  fbWf := reset_fb_wf
  toneRuns h := by cases h
  noFault _ := ⟨rfl, rfl⟩
  faulted h := by cases h
  cmdBuf := .inl rfl
  cmdBufLength := Nat.zero_le _
  flush k h := by cases h
  events := ⟨fun _ => rfl, fun _ => rfl⟩

/-- No clause of the invariant speaks of the environment. -/
theorem inv_environment {s : State} (hs : s.Inv) (port : List Word) (env : List EnvEvent) (acks : Option Nat)
    (readData : Option Word) :
    ({ s with port := port, env := env, acks := acks, readData := readData } : State).Inv :=
  { hs with }

theorem causeCode_bounds (c : Cause) : 1 ≤ (causeCode c).toNat ∧ (causeCode c).toNat ≤ 4 := by
  cases c <;> decide

/-- Fault entry outside a flush keeps the invariant (R131). -/
theorem inv_raiseFault {s : State} (hs : s.Inv) (hk : s.flush = none) (c : Cause) (w : Word) :
    (raiseFault c w s).Inv :=
  { hs with
    noFault := fun h => by cases h
    faulted := fun _ => ⟨causeCode_bounds c, rfl, hk⟩
    cmdBuf := .inl rfl
    cmdBufLength := Nat.zero_le _
    flush := fun k h => by cases hk.symm.trans h }

/-- Another framebuffer in canonical form keeps the invariant. -/
theorem inv_fb {s : State} (hs : s.Inv) {m : Memory} (hm : Memory.wf m) : ({ s with fb := m } : State).Inv :=
  { hs with fbWf := hm }

/-- The restart of a legal frequency keeps the invariant: a period of at least 2, the counter at 0 and the high-time at
half the period (R76, R77). -/
theorem inv_toneRestart {s : State} (hs : s.Inv) {p : Nat} (hlow : 2 ≤ p) (hhigh : p < 2 ^ 32) :
    (toneRestart p s).Inv := by
  obtain ⟨htop, hduty⟩ := toneRestart_toNat hhigh s
  refine { hs with toneRuns := fun _ => ?_ }
  rw [htop, hduty]
  exact ⟨hlow, Nat.lt_of_lt_of_le Nat.zero_lt_two hlow, .inl rfl⟩

/-- Cycles of the drive clock keep the counter inside its period (R79). -/
theorem inv_elapse {s : State} (hs : s.Inv) : (elapse s).Inv := by
  refine { hs with toneRuns := fun hrun => ?_ }
  obtain ⟨htop, hcnt, hhigh⟩ := hs.toneRuns hrun
  refine ⟨htop, ?_, hhigh⟩
  rw [elapse_toneRun] at hrun
  rw [elapse_toneCnt, cycles_toneCnt, if_pos hrun]
  exact tickCntN_lt _ _ _ hcnt

/-- Every command of a block with an empty CMD_BUF outside a flush keeps the invariant. -/
theorem exec_keeps_inv {i : Instr} {s t : State} (hs : s.Inv) (hf : s.faulted = false) (hw : s.cmdBuf = [])
    (hk : s.flush = none) (h : exec i s = .next t) : t.Inv := by
  cases i with
  | nop =>
    cases h
    exact hs
  | tonePlay freq =>
    rcases execTonePlay_cases freq s with ⟨-, e⟩ | ⟨-, e⟩ | ⟨⟨hmin, hmax⟩, e⟩ <;> cases e.symm.trans h
    · refine { hs with toneRuns := fun hrun => ?_ }
      obtain ⟨htop, hcnt, -⟩ := hs.toneRuns hrun
      exact ⟨htop, hcnt, .inr rfl⟩
    · exact inv_raiseFault hs hk _ _
    · obtain ⟨hlow, hhigh⟩ := period_bounds hmin hmax
      exact inv_toneRestart hs hlow hhigh
  | toneStop =>
    cases h
    exact { hs with toneRuns := fun h => by cases h }
  | fbClear =>
    cases h
    exact inv_issueCalls (inv_fb hs (zeroBytes_wf hs.fbWf)) hf hw (by rw [flushCalls_length])
  | fbSetPixel color x y =>
    cases h
    exact inv_fb hs (setPixel_wf hs.fbWf _ _ _)
  | fbDrawGlyph ch scale x y =>
    cases h
    exact inv_fb hs (paint_wf _ hs.fbWf)
  | fbDrawString scale spacing x y text =>
    cases h
    exact inv_fb hs (paint_wf _ hs.fbWf)
  | fbFlush =>
    cases h
    exact inv_issueCalls hs hf hw (by rw [flushCalls_length])
  | fbCenter w h' =>
    cases h
    exact { hs with }
  | fbPeek index =>
    rcases exec_fbPeek_cases index s with e | e <;> cases e.symm.trans h
    · exact inv_raiseFault hs hk _ _
    · exact { hs with }
  | dbSample rawA rawB now =>
    cases h
    exact { hs with events := ⟨sampleButton_evt rawA now s.btnA, sampleButton_evt rawB now s.btnB⟩ }
  | dbSetThresh btn ms =>
    cases btn <;> cases h <;> exact { hs with }

/-- What a block outside a flush does with its words keeps the invariant (R56). -/
theorem takeCommand_keeps_inv {s t : State} (hs : s.Inv) (hf : s.faulted = false) (hk : s.flush = none)
    (h : takeCommand s = .next t) : t.Inv := by
  have hnone : ∀ {l : List Word} (k : Nat), s.flush = some k → k < 505 ∧ l = [] := fun k hsome => by
    cases hk.symm.trans hsome
  rcases takeCommand_cases s with ⟨c, e⟩ | e | ⟨hdecode, e⟩ | ⟨i, rest, e⟩
  · cases e.symm.trans h
    exact inv_raiseFault (inv_environment hs (pendingWords s).tail s.env s.acks s.readData) hk c _
  · cases e.symm.trans h
    exact hs
  · cases e.symm.trans h
    exact { hs with
      faulted := fun hfault => by cases hf.symm.trans hfault
      cmdBuf := .inr hdecode
      cmdBufLength := decode_incomplete_length hdecode
      flush := hnone }
  · have hempty : ({ s with cmdBuf := [], port := rest } : State).Inv :=
      { hs with
        faulted := fun hfault => by cases hf.symm.trans hfault
        cmdBuf := .inl rfl
        cmdBufLength := Nat.zero_le _
        flush := hnone }
    exact exec_keeps_inv hempty hf rfl hk (e.symm.trans h)

/-- A flush that goes on keeps the invariant: at most the calls after the awaited one are left (R97). -/
theorem inv_resumeFlush {s : State} (hs : s.Inv) (hf : s.faulted = false) {k : Nat} (hk : s.flush = some k) :
    (resumeFlush k s).Inv := by
  obtain ⟨hlt, hw⟩ := hs.flush k hk
  have hleft : k + 1 + ((flushCalls s.fb).drop (k + 1)).length ≤ 505 := by
    rw [List.length_drop, flushCalls_length]
    omega
  rw [resumeFlush]
  split
  · exact inv_issueCalls hs hf hw hleft
  · exact hs
  · rename_i n _
    exact inv_issueCalls (inv_environment hs s.port s.env (some n) s.readData) hf hw hleft

theorem blockTurn_keeps_inv {s t : State} (hs : s.Inv) (h : blockTurn s = .next t) : t.Inv := by
  rcases blockTurn_cases s with ⟨-, e⟩ | ⟨hf, k, hk, e⟩ | ⟨hf, hk, e⟩
  · cases e.symm.trans h
    exact { hs with }
  · cases e.symm.trans h
    exact inv_resumeFlush hs hf hk
  · exact takeCommand_keeps_inv hs hf hk (e.symm.trans h)

/-- Settles O52: the advance by `inv_elapse`, then the block's turn by `blockTurn_keeps_inv`, a reset as after power-on,
and the other events touch no field of the invariant. -/
theorem stepKeepsInvariant : Obligations.StepKeepsInvariant := by
  intro s t hs h
  have he := inv_elapse hs
  rcases step_cases h with ⟨env, port, e⟩ | ⟨env, v, rfl⟩ | ⟨env, a, rfl⟩ | ⟨env, -, rfl⟩
  · exact blockTurn_keeps_inv (inv_environment he port env s.acks s.readData) e
  · exact inv_environment he s.port env s.acks (some v)
  · exact inv_environment he s.port env a s.readData
  · exact { resetInvariant with }

end Sys2Proof.Machine
end

section
/-! The waveform generator (R79 to R82, R85): the counter after any number of cycles, the line after TONE_PLAY, silence,
and the generated frequency. -/
namespace Sys2Proof.Machine

/-- Stopped, the counter stands still (R79). -/
theorem cycles_of_stopped {s : State} (h : s.toneRun = false) (n : Nat) : cycles n s = s := by
  rw [cycles, if_neg (Bool.eq_false_iff.1 h)]

/-- Running inside its period, the counter advances modulo TONE_TOP (R79). -/
theorem cycles_of_running {s : State} (h : s.toneRun = true) (hcnt : s.toneCnt.toNat < s.toneTop.toNat) (n : Nat) :
    cycles n s = { s with toneCnt := BitVec.ofNat 32 ((s.toneCnt.toNat + n) % s.toneTop.toNat) } := by
  rw [cycles, if_pos h, ← tickCntN_toNat _ n _ hcnt, BitVec.ofNat_toNat, BitVec.setWidth_eq]

/-- The counter of a running generator as a number (R79). -/
theorem cycles_toneCnt_toNat {s : State} (h : s.toneRun = true) (hcnt : s.toneCnt.toNat < s.toneTop.toNat) (n : Nat) :
    (cycles n s).toneCnt.toNat = (s.toneCnt.toNat + n) % s.toneTop.toNat := by
  rw [cycles_toneCnt, if_pos h, tickCntN_toNat _ n _ hcnt]

/-- A block with no word to take leaves its state in its turn (R139). -/
theorem blockTurn_of_no_word {s : State} (h : s.Ready) (hport : s.port = []) : blockTurn s = .next s := by
  have hnone : decode (pendingWords s) = .error .noWord := by
    rw [pendingWords, h.noWords, hport]
    rfl
  rw [blockTurn_of_idle h.noFault h.noFlush, takeCommand_of_noWord hnone]

/-- No turn of the block counts a draw (R79). -/
theorem blockTurn_draws {s t : State} (h : blockTurn s = .next t) : t.draws = s.draws := by
  rcases blockTurn_cases s with ⟨-, e⟩ | ⟨-, k, -, e⟩ | ⟨-, -, e⟩
  · cases e.symm.trans h
    rfl
  · obtain ⟨c, a, f, hframe⟩ := resumeFlush_frame k s
    cases e.symm.trans h
    rw [hframe]
  · rcases takeCommand_cases s with ⟨c, e'⟩ | e' | ⟨-, e'⟩ | ⟨i, rest, e'⟩ <;> rw [e, e'] at h
    · cases h
      rfl
    · cases h
      rfl
    · cases h
      rfl
    · exact (exec_frame h).2.2.2

/-- Every step takes one draw (R79). -/
theorem step_draws {s t : State} (h : step s = .next t) : t.draws = s.draws + 1 := by
  rcases step_cases h with ⟨env, port, e⟩ | ⟨env, v, rfl⟩ | ⟨env, a, rfl⟩ | ⟨env, -, rfl⟩
  · have hdraws := blockTurn_draws e
    exact hdraws
  · rfl
  · rfl
  · rfl

/-- Settles O11: the counter by `cycles_of_stopped` and `cycles_of_running`, the draw by `step_draws`, and a block with
nothing to do by `blockTurn_of_no_word`. -/
theorem toneCounterAdvances : Obligations.ToneCounterAdvances := by
  intro s n
  refine ⟨fun h => cycles_of_stopped h n, fun h => ?next, fun h hcnt => cycles_of_running h hcnt n, rfl, rfl,
    fun t => step_draws, fun hready henv hport => ?idle⟩
  case next =>
    simp only [cycles, h, if_true]
    rfl
  case idle =>
    have hstep : step s = .next (elapse s) :=
      (step_of_env_nil henv).trans
        (blockTurn_of_no_word ⟨hready.noFault, hready.noWords, hready.noFlush⟩ hport)
    rw [hstep, elapse]
    refine ⟨fun h => ?_, fun h hcnt => ?_⟩
    · rw [cycles_of_stopped h]
    · rw [cycles_of_running h hcnt]

/-- `n` cycles after the restart of a period `p` the counter is `n mod p`, so the line is high in the first half of each
period (R80, R81). -/
theorem toneOut_cycles_toneRestart {p : Nat} (hlow : 2 ≤ p) (hhigh : p < 2 ^ 32) (n : Nat) (s : State) :
    toneOut (cycles n (toneRestart p s)) = decide (n % p < p / 2) := by
  obtain ⟨htop, hduty⟩ := toneRestart_toNat hhigh s
  have hinside : (toneRestart p s).toneCnt.toNat < (toneRestart p s).toneTop.toNat := by
    rw [htop]
    exact Nat.lt_of_lt_of_le Nat.zero_lt_two hlow
  have hcnt : (cycles n (toneRestart p s)).toneCnt.toNat = n % p := by
    rw [cycles_toneCnt_toNat rfl hinside, htop]
    exact congrArg (· % p) (Nat.zero_add n)
  simp only [toneOut, cycles_toneRun, cycles_toneHigh, hcnt, hduty]
  rfl

/-- Settles O12: the waveform of the restart with the period of the frequency; right after the command `n` is 0. -/
theorem toneWaveform : Obligations.ToneWaveform := by
  intro freq s hmin hmax
  obtain ⟨hlow, hhigh⟩ := period_bounds hmin hmax
  refine ⟨_, execTonePlay_legal hmin hmax s, ?_, fun n => toneOut_cycles_toneRestart hlow hhigh n s⟩
  have hstart := toneOut_cycles_toneRestart hlow hhigh 0 s
  rw [Nat.zero_mod, decide_eq_true (Nat.div_pos hlow Nat.zero_lt_two)] at hstart
  exact hstart

/-- Settles O14: TONE_PLAY 0 only sets TONE_HIGH to 0, and the counter runs on inside its period. -/
theorem toneSilence : Obligations.ToneSilence := by
  intro s hs hrun
  obtain ⟨-, hcnt, -⟩ := hs.toneRuns hrun
  exact ⟨_, execTonePlay_zero s, hrun, rfl, fun n =>
    ⟨toneOut_of_silent (cycles_toneHigh n _), cycles_toneCnt_toNat (s := toneSetDuty 0 s) hrun hcnt n⟩⟩

section
variable {hz f : Nat} (hf : 0 < f) (hlt : f < hz)
include hf hlt

/-- The quotient of the clock by its period count is at least the frequency (R85). -/
theorem le_div_period : (f : ℚ) ≤ (hz : ℚ) / (hz / f : Nat) := by
  have hpos : 0 < hz / f := Nat.div_pos hlt.le hf
  rw [le_div_iff₀ (by exact_mod_cast hpos)]
  exact_mod_cast Nat.mul_div_le hz f

/-- The same quotient is below `f * hz / (hz - f)`, as `hz < f * (hz / f) + f` (R85). -/
theorem div_period_lt : (hz : ℚ) / (hz / f : Nat) < f * hz / (hz - f) := by
  have hpos : (0 : ℚ) < (hz / f : Nat) := by exact_mod_cast Nat.div_pos hlt.le hf
  have hgap : (0 : ℚ) < hz - f := sub_pos.2 (by exact_mod_cast hlt)
  have hhz : (0 : ℚ) < hz := by exact_mod_cast hf.trans hlt
  have hrest : (hz : ℚ) < f * (hz / f : Nat) + f := by exact_mod_cast Nat.lt_mul_div_succ hz hf
  rw [div_lt_div_iff₀ hpos hgap]
  nlinarith

/-- The quotient is the frequency exactly when the frequency divides the clock (R85). -/
theorem div_period_eq_iff : (hz : ℚ) / (hz / f : Nat) = f ↔ f ∣ hz := by
  have hpos : ((hz / f : Nat) : ℚ) ≠ 0 := by exact_mod_cast (Nat.div_pos hlt.le hf).ne'
  rw [div_eq_iff hpos]
  exact ⟨fun h => Dvd.intro (hz / f) (by exact_mod_cast h.symm),
    fun h => by exact_mod_cast (Nat.mul_div_cancel' h).symm⟩

end

/-- The duty of an even period is one half (R85). -/
theorem duty_of_even {p : Nat} (hp : 0 < p) (h : p % 2 = 0) : ((p / 2 : Nat) : ℚ) / p = 1 / 2 := by
  have hpos : (p : ℚ) ≠ 0 := by exact_mod_cast hp.ne'
  have hhalf : (p : ℚ) = 2 * (p / 2 : Nat) := by exact_mod_cast (by omega : p = 2 * (p / 2))
  rw [div_eq_div_iff hpos two_ne_zero]
  linarith

/-- The duty of an odd period falls short of one half by half a cycle (R85). -/
theorem duty_of_odd {p : Nat} (h : p % 2 = 1) : ((p / 2 : Nat) : ℚ) / p = (p - 1) / (2 * p) := by
  have hpos : (p : ℚ) ≠ 0 := by exact_mod_cast (by omega : p ≠ 0)
  have hhalf : (p : ℚ) - 1 = 2 * (p / 2 : Nat) :=
    sub_eq_iff_eq_add.2 (by exact_mod_cast (by omega : p = 2 * (p / 2) + 1))
  rw [hhalf, mul_div_mul_left _ _ two_ne_zero]

/-- Settles O15: TONE_TOP is the period and TONE_HIGH its half, so the quotients are those of the clock by its period
count, which is below the clock as that is at least 40000. -/
theorem toneFrequency : Obligations.ToneFrequency := by
  intro freq s hmin hmax
  obtain ⟨hlow, hhigh⟩ := period_bounds hmin hmax
  obtain ⟨htop, hduty⟩ := toneRestart_toNat hhigh s
  have hf : 0 < freq.toNat := Nat.lt_of_lt_of_le (by decide) hmin
  have hlt : freq.toNat < Config.driveClkHz :=
    Nat.lt_of_le_of_lt hmax (Nat.lt_of_lt_of_le (by decide) driveClkHz_ge)
  refine ⟨_, execTonePlay_legal hmin hmax s, ?_⟩
  rw [htop, hduty]
  exact ⟨le_div_period hf hlt, div_period_lt hf hlt, div_period_eq_iff hf hlt,
    duty_of_even (Nat.zero_lt_of_lt hlow), duty_of_odd⟩

end Sys2Proof.Machine
end

section
/-! The drawing commands as painted points (R94, R104), and the flush against a transport that completes some of its
calls (R97, R99, R139). -/
namespace Sys2Proof.Machine

/-- Painting points outside the grid leaves the framebuffer (R91). -/
theorem paint_of_outside {ps : List (Int × Int)} (h : ∀ p ∈ ps, inGrid p.1 p.2 = false) (m : Memory) :
    paint ps m = m := by
  induction ps with
  | nil => rfl
  | cons p ps ih =>
    rw [paint_cons, setPixel_outside (h p List.mem_cons_self)]
    exact ih fun q hq => h q (List.mem_cons_of_mem p hq)

/-- A point of block `k` of `n` blocks of `s` points is one of their `n * s` points (R93). -/
theorem block_offset_lt {k n s d : Nat} (hk : k < n) (hd : d < s) : (k : Int) * s + d < n * s := by
  have h : k * s + d < n * s :=
    calc k * s + d < k * s + s := Nat.add_lt_add_left hd _
      _ = (k + 1) * s := (Nat.succ_mul k s).symm
      _ ≤ n * s := Nat.mul_le_mul_right s hk
  exact_mod_cast h

/-- Settles O21: a point of the glyph lies in a block of a set bit (`mem_charPixels`), so there is none, or it is
outside the grid. -/
theorem drawGlyphCorners : Obligations.DrawGlyphCorners := by
  intro ch scale x y s hcorner
  have hout : ∀ p ∈ charPixels font ch x.toInt y.toInt scale.toNat, inGrid p.1 p.2 = false := by
    rintro ⟨u, v⟩ hp
    obtain ⟨hfont, col, row, hcol, hrow, -, dx, dy, hdx, hdy, rfl, rfl⟩ := (mem_charPixels ch _ _ _ u v).1 hp
    have hright := block_offset_lt hcol hdx
    have hbelow := block_offset_lt hrow hdy
    have hleft : 0 ≤ (col : Int) * scale.toNat := by positivity
    have habove : 0 ≤ (row : Int) * scale.toNat := by positivity
    rw [← Bool.not_eq_true, inGrid_iff]
    rcases hcorner with rfl | hnone | h | h | h | h
    · exact absurd hdx (Nat.not_lt_zero dx)
    · cases hnone.symm.trans hfont
    all_goals omega
  rw [exec_fbDrawGlyph, paint_of_outside hout]

/-- A drawing command paints a list of points that does not depend on the state (R94, R96). -/
theorem exec_of_drawsGlyphs {i : Instr} (h : drawsGlyphs i = true) :
    ∃ ps, ∀ s, exec i s = .next { s with fb := paint ps s.fb } := by
  cases i with
  | fbDrawGlyph ch scale x y => exact ⟨_, exec_fbDrawGlyph ch scale x y⟩
  | fbDrawString scale spacing x y text => exact ⟨_, exec_fbDrawString scale spacing x y text⟩
  | _ => cases h

/-- Two lists of points can be painted in either order (R104): a pixel is set when it was or is in one of them. -/
theorem paint_comm {m : Memory} (hm : Memory.wf m) (ps qs : List (Int × Int)) :
    paint qs (paint ps m) = paint ps (paint qs m) := by
  refine Memory.ext_of_pixel (paint_wf _ (paint_wf _ hm)) (paint_wf _ (paint_wf _ hm)) fun u v => ?_
  rw [pixel_paint _ (paint_sorted _ hm.1), pixel_paint _ hm.1, pixel_paint _ (paint_sorted _ hm.1), pixel_paint _ hm.1]
  exact Bool.or_right_comm _ _ _

/-- Painting clears no bit (R104). -/
theorem getLsbD_read_paint_of_set {m : Memory} (hm : Memory.wf m) (ps : List (Int × Int)) {a k : Nat}
    (h : (Memory.read m a).getLsbD k = true) : (Memory.read (paint ps m) a).getLsbD k = true := by
  have hk : k < 8 := BitVec.lt_of_getLsbD h
  have ha : a < 504 := by
    by_contra hle
    rw [Memory.read_oob hm (Nat.not_lt.1 hle)] at h
    simp at h
  obtain ⟨x, y, hgrid, rfl, rfl⟩ := exists_pixel_at ha hk
  rw [getLsbD_read_paint hm.1 hgrid, h, Bool.true_or]

/-- Settles O23: both orders paint the same points, by `paint_comm`. -/
theorem drawingOrderIrrelevant : Obligations.DrawingOrderIrrelevant := by
  intro i j s hi hj hwf
  obtain ⟨ps, hps⟩ := exec_of_drawsGlyphs hi
  obtain ⟨qs, hqs⟩ := exec_of_drawsGlyphs hj
  refine ⟨{ s with fb := paint qs (paint ps s.fb) }, ?_, ?_, fun a k h => ?_⟩
  · simp only [runCommands, hps, hqs]
  · simp only [runCommands, hps, hqs, paint_comm hwf]
  · exact getLsbD_read_paint_of_set (paint_wf ps hwf) qs (getLsbD_read_paint_of_set hwf ps h)

/-- FB_FLUSH and FB_CLEAR are a flush of the framebuffer each one sends (R98, R99). -/
theorem exec_of_flushes {i : Instr} {s : State} {m : Memory} (hwf : Memory.wf s.fb) (h : flushes i s m) :
    exec i s = .next (startFlush { s with fb := m }) := by
  rcases h with ⟨rfl, rfl⟩ | ⟨rfl, rfl⟩
  · exact exec_fbFlush s
  · exact exec_fbClear_of_wf hwf

/-- Calls made on top of others follow them in the trace (R54). -/
theorem trace_of_calls {s t : State} {new : List Call} (h : t.calls = new.reverse ++ s.calls) :
    trace t = trace s ++ new := by
  rw [trace, h, List.reverse_append, List.reverse_reverse]
  rfl

/-- Settles O25: the flush stops by `startFlush_stall` and completes by `startFlush_enough`. -/
theorem flushWaitsForTransport : Obligations.FlushWaitsForTransport := by
  intro i s m n hwf hflush hacks
  have hacks' : ({ s with fb := m } : State).acks = some n := hacks
  refine ⟨_, exec_of_flushes hwf hflush, fun hn => ?_, fun hn => ?_⟩
  · rw [startFlush_stall _ hacks' hn]
    exact ⟨rfl, trace_of_calls rfl⟩
  · rw [startFlush_enough _ hacks' hn]
    exact ⟨rfl, trace_of_calls rfl⟩

/-- Display calls made after others, as one list of calls (R54). -/
theorem reverse_calls_append (cs ds : List DispCall) (calls : List Call) :
    (ds.map Call.disp).reverse ++ ((cs.map Call.disp).reverse ++ calls)
      = ((cs ++ ds).map Call.disp).reverse ++ calls := by
  rw [List.map_append, List.reverse_append, List.append_assoc]

/-- A flush that stops at call `n` and gets `a` more completions ends as one that got them with its first `n`: with
every call completed, with enough of them, and with too few again (R97, R139). -/
theorem resumeFlush_startFlush {s : State} {n : Nat} (hacks : s.acks = some n) (hn : n < 505) (a : Option Nat) :
    resumeFlush n { startFlush s with acks := a } = startFlush { s with acks := a.map (n + ·) } := by
  have hleft (fb : Memory) : ((flushCalls fb).drop (n + 1)).length = 504 - n := by
    rw [List.length_drop, flushCalls_length]
    omega
  rw [startFlush_stall s hacks hn]
  cases a with
  | none =>
    rw [resumeFlush_prompt n rfl, startFlush_prompt _ rfl, reverse_calls_append, List.take_append_drop]
    rfl
  | some m =>
    rw [Option.map_some]
    cases m with
    | zero => rw [resumeFlush_zero n rfl, startFlush_stall _ rfl hn]
    | succ m =>
      rw [resumeFlush_succ n rfl]
      by_cases hm : 504 - n ≤ m
      · rw [issueCalls_enough _ _ m _ rfl (by rw [hleft]; exact hm), startFlush_enough _ rfl (by omega), hleft,
          reverse_calls_append, List.take_append_drop, show m - (504 - n) = n + (m + 1) - 505 by omega]
      · rw [issueCalls_stall _ _ m _ rfl (by rw [hleft]; omega), startFlush_stall _ rfl (by omega),
          reverse_calls_append, ← List.take_add, Nat.add_right_comm n 1 m, Nat.add_right_comm n 1 (m + 1)]
        rfl

/-- FB_FLUSH and FB_CLEAR are a flush of some framebuffer, in every state. -/
theorem exec_flush_or_clear {i : Instr} (h : i = .fbFlush ∨ i = .fbClear) (s : State) :
    ∃ m, ∀ acks, exec i { s with acks := acks } = .next (startFlush { s with fb := m, acks := acks }) := by
  rcases h with rfl | rfl
  · exact ⟨s.fb, fun _ => rfl⟩
  · exact ⟨zeroBytes s.fb, fun _ => rfl⟩

/-- Settles O27: the next turn goes on with the flush, by `resumeFlush_startFlush`. -/
theorem resumedFlushIsWhole : Obligations.ResumedFlushIsWhole := by
  intro i s n hi hf hacks hn
  obtain ⟨m, hexec⟩ := exec_flush_or_clear hi s
  have hresumed (a : Option Nat) : blockTurn { startFlush { s with fb := m } with acks := a }
      = exec i { s with acks := a.map (n + ·) } := by
    have hstall := startFlush_stall { s with fb := m } hacks hn
    rw [hexec, blockTurn_of_flush (k := n) (by rw [hstall]; exact hf) (by rw [hstall]),
      resumeFlush_startFlush (s := { s with fb := m }) hacks hn]
  refine ⟨_, hexec s.acks, ?_, fun a => ?_⟩
  · exact ⟨_, (hresumed none).trans (hexec none), hexec none⟩
  · exact ⟨_, (hresumed (some a)).trans (hexec _), hexec _⟩

/-- Settles O26: the flush goes on waiting by `resumeFlush_zero`, and so does it after any event that gives the block
its turn. -/
theorem waitingBlockTakesNoWord : Obligations.WaitingBlockTakesNoWord := by
  have hwait (s : State) (h : s.waitsForTransport) : blockTurn s = .next s := by
    obtain ⟨hf, ⟨k, hk⟩, hacks⟩ := h
    rw [blockTurn_of_flush hf hk, resumeFlush_zero k hacks]
  intro s h
  refine ⟨hwait s h, fun henv => ?_, fun rest henv => ?_, fun w rest henv => ?_⟩
  · exact (step_of_env_nil henv).trans (hwait _ h)
  · exact (step_of_env_cons henv).trans (hwait _ h)
  · exact (step_of_env_cons henv).trans (hwait { elapse s with env := rest, port := s.port ++ [w] } h)

/-- The step of a block that waits for call `k`, with no event waiting, goes on with the flush (R155). -/
theorem step_of_flush {s : State} {k : Nat} (henv : s.env = []) (hf : s.faulted = false) (hk : s.flush = some k) :
    step s = .next (resumeFlush k (elapse s)) :=
  (step_of_env_nil henv).trans (blockTurn_of_flush hf hk)

/-- After call `k` of a flush comes the data byte `k`, while there is one (R97). -/
theorem drop_flushCalls {k : Nat} (hk : k < 504) (m : Memory) :
    (flushCalls m).drop (k + 1) = .data (Memory.read m k) :: (flushCalls m).drop (k + 2) := by
  have hlt : k < ((List.range Config.fbBytes).map fun i => DispCall.data (Memory.read m i)).length := by
    rw [List.length_map, List.length_range]
    exact hk
  rw [flushCalls, List.drop_succ_cons, List.drop_succ_cons, List.drop_eq_getElem_cons hlt, List.getElem_map,
    List.getElem_range]

/-- One completion more, and the next call is made and awaited (R97, R139). -/
theorem resumeFlush_one {s : State} {k : Nat} (hk : k < 504) (hacks : s.acks = some 1) :
    resumeFlush k s = { s with
      calls := .disp (.data (Memory.read s.fb k)) :: s.calls, flush := some (k + 1), acks := some 0 } := by
  rw [resumeFlush_succ k hacks, drop_flushCalls hk]
  simp only [issueCalls, emit]

/-- One completion more after the last call, and the flush is over (R97). -/
theorem resumeFlush_last {s : State} (hacks : s.acks = some 1) :
    resumeFlush 504 s = { s with flush := none, acks := some 0 } := by
  rw [resumeFlush_succ 504 hacks, List.drop_of_length_le (flushCalls_length s.fb).le]
  rfl

/-- Settles O58: the calls that are left by `resumeFlush_prompt`; with one completion, the next of them by
`resumeFlush_one`, or the end of the flush by `resumeFlush_last`. -/
theorem completionEndsWait : Obligations.CompletionEndsWait := by
  refine ⟨fun s a rest henv => step_of_env_cons henv, fun s k h hk _ => ?_⟩
  obtain ⟨hf, -, -⟩ := h
  have hstep (a : Option Nat) := step_of_flush (s := { elapse s with env := [], acks := a }) rfl hf hk
  refine ⟨fun henv => ?every, fun henv => ⟨_, step_of_env_cons henv, fun hlt => ?next, fun hlast => ?last⟩⟩
  case every =>
    have hnone := hstep none
    rw [resumeFlush_prompt k rfl] at hnone
    exact ⟨_, _, step_of_env_cons henv, hnone, rfl, trace_of_calls rfl⟩
  case next => exact (hstep (some 1)).trans (congrArg _ (resumeFlush_one hlt rfl))
  case last =>
    subst hlast
    exact (hstep (some 1)).trans (congrArg _ (resumeFlush_last rfl))

end Sys2Proof.Machine
end

section
/-! The buttons (R110, R117 to R119): two buttons alike, a button held through any number of samples, and which commands
touch a button. -/
namespace Sys2Proof.Machine

/-- Settles O33: either button ends in its own step of the state it started in. -/
theorem buttonsIndependent : Obligations.ButtonsIndependent := by
  intro btn btn' raw other other' now s s' h
  obtain ⟨t, hexec, ht⟩ := exec_sampleOf btn raw other now s
  obtain ⟨t', hexec', ht'⟩ := exec_sampleOf btn' raw other' now s'
  exact ⟨t, t', hexec, hexec', by rw [ht, ht', h]⟩

/-- A sample that finds a held button pressed leaves it held since the same time, with no event, however many there
are. -/
theorem runCommands_holds (btn : Button) (holds : List (BitVec 1 × Word)) {s : State}
    (hevt : (buttonOf btn s).evt = false) (hpressed : (buttonOf btn s).pressed = true) :
    ∃ t, runCommands (holds.map fun h => sampleOf btn 0 h.1 h.2) s = .next t
      ∧ buttonOf btn t = buttonOf btn s := by
  induction holds generalizing s with
  | nil => exact ⟨s, rfl, rfl⟩
  | cons h holds ih =>
    obtain ⟨u, hexec, hu⟩ := exec_sampleOf btn 0 h.1 h.2 s
    have hsame : buttonOf btn u = buttonOf btn s := by
      rw [hu, sampleButton_held _ hpressed, ← hevt]
    obtain ⟨t, hrun, ht⟩ := ih (s := u) (by rw [hsame, hevt]) (by rw [hsame, hpressed])
    refine ⟨t, ?_, ht.trans hsame⟩
    rw [List.map_cons, runCommands, hexec]
    exact hrun

/-- Settles O34: the press by `sampleButton_press`, the held samples by `runCommands_holds`, the release by
`sampleButton_release`. -/
theorem heldButtonOneEvent : Obligations.HeldButtonOneEvent := by
  intro btn holds other other' pressed released s hup
  obtain ⟨p, hpress, hp⟩ := exec_sampleOf btn 0 other pressed s
  rw [sampleButton_press pressed hup] at hp
  obtain ⟨t, hrun, ht⟩ := runCommands_holds btn holds (s := p) (by rw [hp]) (by rw [hp])
  rw [hp] at ht
  obtain ⟨u, hrelease, hu⟩ := exec_sampleOf btn 1 other' released t
  rw [sampleButton_release released (by rw [ht]), ht] at hu
  refine ⟨t, u, ?_, by rw [ht], by rw [ht], by rw [ht], hrelease, by rw [hu], by rw [hu], by rw [hu]⟩
  rw [runCommands, hpress]
  exact hrun

/-- Every command but DB_SAMPLE and DB_SET_THRESH leaves both buttons alone (R119). -/
theorem exec_buttons {i : Instr} {s t : State} (hsample : ∀ a b now, i ≠ .dbSample a b now)
    (hthresh : ∀ btn ms, i ≠ .dbSetThresh btn ms) (h : exec i s = .next t) : t.btnA = s.btnA ∧ t.btnB = s.btnB := by
  cases i with
  | dbSample a b now => exact absurd rfl (hsample a b now)
  | dbSetThresh btn ms => exact absurd rfl (hthresh btn ms)
  | tonePlay freq =>
    rcases execTonePlay_cases freq s with ⟨-, e⟩ | ⟨-, e⟩ | ⟨-, e⟩ <;> cases e.symm.trans h <;> exact ⟨rfl, rfl⟩
  | fbClear =>
    obtain ⟨c, a, f, e⟩ := startFlush_frame { s with fb := zeroBytes s.fb }
    cases h
    rw [e]
    exact ⟨rfl, rfl⟩
  | fbFlush =>
    obtain ⟨c, a, f, e⟩ := startFlush_frame s
    cases h
    rw [e]
    exact ⟨rfl, rfl⟩
  | fbPeek index =>
    rcases exec_fbPeek_cases index s with e | e <;> cases e.symm.trans h <;> exact ⟨rfl, rfl⟩
  | _ =>
    cases h
    exact ⟨rfl, rfl⟩

/-- Settles O35: DB_SET_THRESH writes a threshold alone, and the other commands touch no button by `exec_buttons`. -/
theorem onlySampleChangesButtons : Obligations.OnlySampleChangesButtons := by
  intro i s hsample
  by_cases hthresh : ∃ btn ms, i = .dbSetThresh btn ms
  · obtain ⟨btn, ms, rfl⟩ := hthresh
    cases btn with
    | a => exact ⟨_, exec_dbSetThresh_a ms s, rfl, rfl, fun h => absurd rfl (h .a ms)⟩
    | b => exact ⟨_, exec_dbSetThresh_b ms s, rfl, rfl, fun h => absurd rfl (h .b ms)⟩
  · obtain ⟨t, h⟩ := exec_total i s
    obtain ⟨ha, hb⟩ := exec_buttons hsample (fun btn ms e => hthresh ⟨btn, ms, e⟩) h
    exact ⟨t, h, by rw [ha], by rw [hb], fun _ => ⟨ha, hb⟩⟩

end Sys2Proof.Machine
end

section
/-! The assembler's operand checks (R73): a check takes a number exactly inside its range, and a line takes its operands
exactly when every check does. -/
namespace Sys2Proof.Machine

/-- The check answers a value with `holds` exactly when its operand fits, and else that it is out of range. -/
def checks {α : Type} (r : Except AsmError α) (fits : Prop) (holds : α → Prop) : Prop :=
  (fits → ∃ a, r = .ok a ∧ holds a) ∧ (¬ fits → r = .error .outOfRange)

theorem checks_ite {α : Type} {fits : Prop} [Decidable fits] {a : α} {holds : α → Prop} (h : fits → holds a) :
    checks (if fits then .ok a else .error .outOfRange) fits holds :=
  ⟨fun hf => ⟨a, if_pos hf, h hf⟩, fun hf => if_neg hf⟩

/-- Two checks in a row take their operands exactly when each takes its own; the first to refuse answers. -/
theorem checks_bind {α β : Type} {r : Except AsmError α} {f : α → Except AsmError β} {p q : Prop} {P : α → Prop}
    {Q : β → Prop} (hr : checks r p P) (hf : ∀ a, P a → checks (f a) q Q) : checks (r >>= f) (p ∧ q) Q := by
  refine ⟨fun ⟨hp, hq⟩ => ?_, fun h => ?_⟩
  · obtain ⟨a, rfl, ha⟩ := hr.1 hp
    exact (hf a ha).1 hq
  · by_cases hp : p
    · obtain ⟨a, rfl, ha⟩ := hr.1 hp
      exact (hf a ha).2 fun hq => h ⟨hp, hq⟩
    · rw [hr.2 hp]
      rfl

/-- The last check of a line, and the command made of what the checks answered. -/
theorem checks_map {α β : Type} {r : Except AsmError α} {g : α → β} {p : Prop} {P : α → Prop} {Q : β → Prop}
    (hr : checks r p P) (hg : ∀ a, P a → Q (g a)) : checks (r >>= fun a => pure (g a)) p Q := by
  refine ⟨fun hp => ?_, fun hp => ?_⟩
  · obtain ⟨a, rfl, ha⟩ := hr.1 hp
    exact ⟨g a, rfl, hg a ha⟩
  · rw [hr.2 hp]
    rfl

/-- A number from 0 to `hi = 2^n - 1` fits an unsigned field of `n` bits, which then holds it (R73). -/
theorem checks_asmUnsigned {n : Nat} {hi : Int} (hhi : hi + 1 = 2 ^ n) (v : Int) :
    checks (asmUnsigned n v) (within 0 hi v) fun b => (b.toNat : Int) = v := by
  have hrange : (0 ≤ v ∧ v < 2 ^ n) ↔ within 0 hi v := by rw [← hhi, Int.lt_add_one_iff]
  rw [← hrange]
  refine checks_ite fun ⟨h0, hlt⟩ => ?_
  rw [BitVec.toNat_ofInt, Nat.cast_pow, Nat.cast_ofNat, Int.emod_eq_of_lt h0 hlt, Int.toNat_of_nonneg h0]

/-- A number from `lo = -2^(n-1)` to `hi = 2^(n-1) - 1` fits a signed field of `n` bits, which then holds it (R73). -/
theorem checks_asmSigned {n : Nat} (hn : 0 < n) {lo hi : Int} (hlo : lo = -(2 ^ (n - 1))) (hhi : hi + 1 = 2 ^ (n - 1))
    (v : Int) : checks (asmSigned n v) (within lo hi v) fun b => b.toInt = v := by
  have hrange : (-(2 ^ (n - 1)) ≤ v ∧ v < 2 ^ (n - 1)) ↔ within lo hi v := by rw [← hlo, ← hhi, Int.lt_add_one_iff]
  rw [← hrange]
  exact checks_ite fun ⟨hlo, hlt⟩ => BitVec.toInt_ofInt_eq_self hn hlo hlt

theorem checks_asmText (bytes : List Byte) : checks (asmText bytes) (bytes.length ≤ 255) fun t => t = bytes :=
  checks_ite fun _ => rfl

/-- Settles O56: each line is its checks in order, with the bounds of each field. -/
theorem assemblerChecksOperands : Obligations.AssemblerChecksOperands := by
  have hword (v : Int) := checks_asmUnsigned (n := 32) (hi := 4294967295) (by decide) v
  have hhalf (v : Int) := checks_asmUnsigned (n := 16) (hi := 65535) (by decide) v
  have hindex (v : Int) := checks_asmUnsigned (n := 9) (hi := 511) (by decide) v
  have hbyte (v : Int) := checks_asmUnsigned (n := 8) (hi := 255) (by decide) v
  have hbit (v : Int) := checks_asmUnsigned (n := 1) (hi := 1) (by decide) v
  have hcoord (v : Int) := checks_asmSigned (n := 16) (lo := -32768) (hi := 32767) (by decide) (by decide) (by decide) v
  have hspacing (v : Int) := checks_asmSigned (n := 8) (lo := -128) (hi := 127) (by decide) (by decide) (by decide) v
  refine ⟨fun f => ?_, fun x y c => ?_, fun ch x y scale => ?_, fun text x y scale spacing => ?_, fun w h => ?_,
    fun index => ?_, fun rawA rawB now => ?_, fun btn ms => ?_⟩
  · exact checks_map (hhalf f) fun freq hfreq => ⟨freq, rfl, hfreq⟩
  · exact checks_bind (hcoord x) fun hx ex => checks_bind (hcoord y) fun hy ey => checks_map (hbit c) fun color ec =>
      ⟨color, hx, hy, rfl, ec, ex, ey⟩
  · exact checks_bind (hbyte ch) fun c ec => checks_bind (hcoord x) fun hx ex => checks_bind (hcoord y) fun hy ey =>
      checks_map (hbyte scale) fun sc es => ⟨c, sc, hx, hy, rfl, ec, es, ex, ey⟩
  · refine checks_bind (checks_asmText text) fun t et => checks_bind (hcoord x) fun hx ex =>
      checks_bind (hcoord y) fun hy ey => checks_bind (hbyte scale) fun sc es => checks_map (hspacing spacing)
        fun sp ep => ⟨sc, sp, hx, hy, by rw [et], es, ep, ex, ey⟩
  · exact checks_bind (hhalf w) fun hw ew => checks_map (hhalf h) fun hh eh => ⟨hw, hh, rfl, ew, eh⟩
  · exact checks_map (hindex index) fun k ek => ⟨k, rfl, ek⟩
  · exact checks_bind (hbit rawA) fun a ea => checks_bind (hbit rawB) fun b eb => checks_map (hword now) fun t et =>
      ⟨a, b, t, rfl, ea, eb, et⟩
  · exact checks_map (hhalf ms) fun v ev => ⟨v, rfl, ev⟩

end Sys2Proof.Machine
end
